-- ==== Sys2Proof/Word.lean ====
section
/-! DEFINITION. The word of the core: one cell, queue entry, operand or register value.
Every value the core holds is a signed 64-bit integer (00_scope.md R6 `WORD_BITS`, R8). A `Word` is the
two's complement pattern of one, and `Word.toInt` is the integer the spec computes on
(DEDUCED, safe: the patterns and `i64` correspond one to one; notes/assumptions/1.md). -/

namespace Sys2Proof

/-- An `i64` of 00_scope.md R8; its value is `BitVec.toInt`. -/
abbrev Word := BitVec 64

/-- The word whose value is the integer `v`, for `v` in `i64` (00_scope.md R8). -/
abbrev Word.ofInt (v : Int) : Word := BitVec.ofInt 64 v

end Sys2Proof
end

