-- ==== Sys2Proof/Syntax.lean ====
section
/-! DEFINITION. The instruction set as syntax (30_encoding.md R300, R304): addressing modes, operands, opcodes and
the instructions, one constructor per row of spec/opcode_table.json. -/

namespace Sys2Proof

/-- Addressing modes: digit 0 Position, 1 Immediate, 2 Relative (30_encoding.md R304). -/
inductive Mode where
  | position
  | immediate
  | relative
  deriving DecidableEq, Repr

/-- One operand slot: its mode and its raw parameter, a whole cell (30_encoding.md R301, R312, R313). -/
structure Operand where
  mode : Mode
  raw  : Word
  deriving DecidableEq, Repr

/-- The ten opcodes (30_encoding.md R300). -/
inductive Opcode where
  | add | mul | inp | out | jt | jf | lt | eq | srel | halt
  deriving DecidableEq, Repr

/-- What the decoder reads from an instruction word: `(op, m1, m2, m3)` (30_encoding.md R305). The mode of a slot
the opcode does not use is Position, the digit 0 (30_encoding.md R307 (c)). -/
structure Header where
  op : Opcode
  m1 : Mode
  m2 : Mode
  m3 : Mode
  deriving DecidableEq, Repr

/-- The instructions with their operands in slot order (30_encoding.md R300). -/
inductive Instr where
  /-- ADD, opcode 1 (41_arithmetic.md R450). -/
  | add (a b dst : Operand)
  /-- MUL, opcode 2 (41_arithmetic.md R460). -/
  | mul (a b dst : Operand)
  /-- IN, opcode 3 (42_io.md R501). -/
  | inp (dst : Operand)
  /-- OUT, opcode 4 (42_io.md R510). -/
  | out (a : Operand)
  /-- JT, opcode 5 (43_jumps.md R550). -/
  | jt (a target : Operand)
  /-- JF, opcode 6 (43_jumps.md R560). -/
  | jf (a target : Operand)
  /-- LT, opcode 7 (44_compare.md R600). -/
  | lt (a b dst : Operand)
  /-- EQ, opcode 8 (44_compare.md R610). -/
  | eq (a b dst : Operand)
  /-- SREL, opcode 9 (45_relbase.md R650). -/
  | srel (a : Operand)
  /-- HALT, opcode 99 (46_halt.md R700). -/
  | halt
  deriving DecidableEq, Repr

end Sys2Proof
end

