-- ==== Sys2Proof/WellFormed.lean ====
section
/-! DEFINITION. Which instructions have an encoding: the destination of ADD, MUL, IN, LT and EQ is Position or Relative,
never Immediate (30_encoding.md R307 (b), 40_engine.md R405). The other limits of 30_encoding.md R307 hold by the types
of Syntax.lean: a used slot has one of the three modes, an unused slot is absent. -/

namespace Sys2Proof

/-- A destination names a cell (40_engine.md R405). -/
def Operand.isDest (o : Operand) : Bool :=
  match o.mode with
  | .position => true
  | .immediate => false
  | .relative => true

/-- The operand an instruction writes, its destination slot (30_encoding.md R300). -/
def Instr.dest? : Instr → Option Operand
  | .add _ _ dst => some dst
  | .mul _ _ dst => some dst
  | .inp dst => some dst
  | .out _ => none
  | .jt _ _ => none
  | .jf _ _ => none
  | .lt _ _ dst => some dst
  | .eq _ _ dst => some dst
  | .srel _ => none
  | .halt => none

/-- The check of 30_encoding.md R307 (b). -/
def Instr.wellFormed (i : Instr) : Bool :=
  match i.dest? with
  | some dst => dst.isDest
  | none => true

end Sys2Proof
end

