-- ==== Sys2Proof/Decode.lean ====
section
/-! DEFINITION. The decoder of 30_encoding.md R300 to R311, total on every word and on every list of cells, rejecting by
name; the encoder, written from the same tables; and the pseudo-instructions of R321. -/

namespace Sys2Proof

/-- Why a list of cells is no instruction. Every cause but the last two is `IllegalInstruction` for the engine
(30_encoding.md R310). The last two never arise in the engine, which fetches the cells it needs one by one
(DESIGN CHOICE, safe; notes/assumptions/15.md). -/
inductive DecodeError where
  /-- A negative word (30_encoding.md R309). -/
  | negativeWord
  /-- The low two digits are no opcode (30_encoding.md R306). -/
  | unknownOpcode
  /-- A digit above the ten-thousands place (30_encoding.md R308). -/
  | highDigits
  /-- A mode digit outside 0, 1, 2 in a used slot (30_encoding.md R307 (a)). -/
  | badMode
  /-- An Immediate destination (30_encoding.md R307 (b)). -/
  | immediateDestination
  /-- A non-zero mode digit in an unused slot (30_encoding.md R307 (c)). -/
  | unusedSlotMode
  /-- The list of cells is empty. -/
  | noWord
  /-- The list of cells ends before the last parameter. -/
  | missingParameters
  deriving DecidableEq, Repr

/-- `digit(v, k)` of 00_scope.md R9. -/
def digit (v k : Nat) : Nat := v / 10 ^ k % 10

/-- `low2(v)` of 00_scope.md R9. -/
def low2 (v : Nat) : Nat := v % 100

/-- The opcode column of 30_encoding.md R300. -/
def Opcode.number : Opcode → Nat
  | .add => 1
  | .mul => 2
  | .inp => 3
  | .out => 4
  | .jt => 5
  | .jf => 6
  | .lt => 7
  | .eq => 8
  | .srel => 9
  | .halt => 99

/-- `NOPS(op)`, the operand count of 30_encoding.md R300. -/
def Opcode.nops : Opcode → Nat
  | .add => 3
  | .mul => 3
  | .inp => 1
  | .out => 1
  | .jt => 2
  | .jf => 2
  | .lt => 3
  | .eq => 3
  | .srel => 1
  | .halt => 0

/-- `DST(op)`, the destination slot of 30_encoding.md R300. -/
def Opcode.dstSlot : Opcode → Option Nat
  | .add => some 3
  | .mul => some 3
  | .inp => some 1
  | .out => none
  | .jt => none
  | .jf => none
  | .lt => some 3
  | .eq => some 3
  | .srel => none
  | .halt => none

/-- The opcode a value of `w mod 100` names (30_encoding.md R300, R306). -/
def opcodeOf (n : Nat) : Option Opcode :=
  if n = 1 then some .add
  else if n = 2 then some .mul
  else if n = 3 then some .inp
  else if n = 4 then some .out
  else if n = 5 then some .jt
  else if n = 6 then some .jf
  else if n = 7 then some .lt
  else if n = 8 then some .eq
  else if n = 9 then some .srel
  else if n = 99 then some .halt
  else none

/-- The digit of a mode (30_encoding.md R304). -/
def Mode.digit : Mode → Nat
  | .position => 0
  | .immediate => 1
  | .relative => 2

/-- The mode a digit names (30_encoding.md R304). -/
def modeOf (d : Nat) : Option Mode :=
  if d = 0 then some .position
  else if d = 1 then some .immediate
  else if d = 2 then some .relative
  else none

/-- The mode of slot `k` from its digit `d`, or why the word is illegal (30_encoding.md R307). -/
def slotMode (op : Opcode) (k d : Nat) : Except DecodeError Mode :=
  if op.nops < k then
    if d = 0 then .ok .position else .error .unusedSlotMode
  else
    match modeOf d with
    | none => .error .badMode
    | some m =>
      if op.dstSlot = some k ∧ m = .immediate then .error .immediateDestination else .ok m

/-- `Decode(w)` of 30_encoding.md R305. -/
def decodeWord (w : Word) : Except DecodeError Header :=
  if w.toInt < 0 then .error .negativeWord
  else
    match opcodeOf (low2 w.toInt.toNat) with
    | none => .error .unknownOpcode
    | some op =>
      if w.toInt.toNat / 100000 ≠ 0 then .error .highDigits
      else
        match slotMode op 1 (digit w.toInt.toNat 2), slotMode op 2 (digit w.toInt.toNat 3),
            slotMode op 3 (digit w.toInt.toNat 4) with
        | .ok m1, .ok m2, .ok m3 => .ok ⟨op, m1, m2, m3⟩
        | .error e, _, _ => .error e
        | .ok _, .error e, _ => .error e
        | .ok _, .ok _, .error e => .error e

/-- The instruction of a decoded word and its raw parameters in slot order (30_encoding.md R301, R312). -/
def Header.instr (h : Header) (p : List Word) : Instr :=
  match h.op with
  | .add => .add ⟨h.m1, p.getD 0 0#64⟩ ⟨h.m2, p.getD 1 0#64⟩ ⟨h.m3, p.getD 2 0#64⟩
  | .mul => .mul ⟨h.m1, p.getD 0 0#64⟩ ⟨h.m2, p.getD 1 0#64⟩ ⟨h.m3, p.getD 2 0#64⟩
  | .inp => .inp ⟨h.m1, p.getD 0 0#64⟩
  | .out => .out ⟨h.m1, p.getD 0 0#64⟩
  | .jt => .jt ⟨h.m1, p.getD 0 0#64⟩ ⟨h.m2, p.getD 1 0#64⟩
  | .jf => .jf ⟨h.m1, p.getD 0 0#64⟩ ⟨h.m2, p.getD 1 0#64⟩
  | .lt => .lt ⟨h.m1, p.getD 0 0#64⟩ ⟨h.m2, p.getD 1 0#64⟩ ⟨h.m3, p.getD 2 0#64⟩
  | .eq => .eq ⟨h.m1, p.getD 0 0#64⟩ ⟨h.m2, p.getD 1 0#64⟩ ⟨h.m3, p.getD 2 0#64⟩
  | .srel => .srel ⟨h.m1, p.getD 0 0#64⟩
  | .halt => .halt

/-- The instruction at the head of a list of cells, and the cells after it (30_encoding.md R301, R302, R305). -/
def decode : List Word → Except DecodeError (Instr × List Word)
  | [] => .error .noWord
  | w :: cells =>
    match decodeWord w with
    | .error e => .error e
    | .ok h =>
      if cells.length < h.op.nops then .error .missingParameters
      else .ok (h.instr (cells.take h.op.nops), cells.drop h.op.nops)

/-- The opcode of an instruction (30_encoding.md R300). -/
def Instr.opcode : Instr → Opcode
  | .add _ _ _ => .add
  | .mul _ _ _ => .mul
  | .inp _ => .inp
  | .out _ => .out
  | .jt _ _ => .jt
  | .jf _ _ => .jf
  | .lt _ _ _ => .lt
  | .eq _ _ _ => .eq
  | .srel _ => .srel
  | .halt => .halt

/-- The operands of an instruction in slot order (30_encoding.md R300). -/
def Instr.operands : Instr → List Operand
  | .add a b dst => [a, b, dst]
  | .mul a b dst => [a, b, dst]
  | .inp dst => [dst]
  | .out a => [a]
  | .jt a t => [a, t]
  | .jf a t => [a, t]
  | .lt a b dst => [a, b, dst]
  | .eq a b dst => [a, b, dst]
  | .srel a => [a]
  | .halt => []

/-- The length of an instruction in cells, fixed by its opcode (30_encoding.md R302). -/
def Instr.length (i : Instr) : Nat := 1 + i.opcode.nops

/-- The instruction word `op + 100*m1 + 1000*m2 + 10000*m3` (30_encoding.md R303, R320). -/
def wordOf (op : Opcode) (m1 m2 m3 : Mode) : Word :=
  BitVec.ofNat 64 (op.number + 100 * m1.digit + 1000 * m2.digit + 10000 * m3.digit)

/-- The mode of a slot of an operand list; an absent slot has mode digit 0 (30_encoding.md R307 (c)). -/
def slotModeOf (os : List Operand) (k : Nat) : Mode :=
  match os[k]? with
  | some o => o.mode
  | none => .position

/-- The cells of an instruction: its word, then its raw parameters (30_encoding.md R301, R320). -/
def encode (i : Instr) : List Word :=
  wordOf i.opcode (slotModeOf i.operands 0) (slotModeOf i.operands 1) (slotModeOf i.operands 2)
    :: i.operands.map Operand.raw

/-- The four cells, first to last, of an instruction given as one number: bit 0 is the least significant bit of the
instruction word, each cell has 64 bits, and every bit from `nbits` up is 0 (DESIGN CHOICE, safe: the spec's table is
decimal and numbers no bits; notes/assumptions/12.md). -/
def tableCells (nbits w : Nat) : List Word :=
  [BitVec.ofNat 64 (w % 2 ^ nbits),
   BitVec.ofNat 64 (w % 2 ^ nbits / 18446744073709551616),
   BitVec.ofNat 64 (w % 2 ^ nbits / 340282366920938463463374607431768211456),
   BitVec.ofNat 64 (w % 2 ^ nbits / 6277101735386680763835789423207666416102355444464034512896)]

/-- The instruction the decoder reads from the number `w` of `nbits` bits. -/
def decodeTableWord (nbits w : Nat) : Option Instr :=
  match decode (tableCells nbits w) with
  | .ok (i, _) => some i
  | .error _ => none

/-- `JMP t`, that is `JT #1, t` (30_encoding.md R321). -/
def pseudoJmp (t : Operand) : Instr := .jt ⟨.immediate, 1#64⟩ t

/-- `MOV a, dst`, that is `ADD a, #0, dst` (30_encoding.md R321). -/
def pseudoMov (a dst : Operand) : Instr := .add a ⟨.immediate, 0#64⟩ dst

/-- `NOP`, that is `JF #1, #0` (30_encoding.md R321). -/
def pseudoNop : Instr := .jf ⟨.immediate, 1#64⟩ ⟨.immediate, 0#64⟩

end Sys2Proof
end

