-- ==== Sys2Proof/Config.lean ====
section
/-! DEFINITION. The parameters of the core (00_scope.md R6): the one OPEN parameter as the fields of a
configuration, the fixed ones as constants. No result of any instruction is left undefined by the spec, so
there is no free value here. -/

namespace Sys2Proof

/-- What an implementation fixes and the spec leaves OPEN (00_scope.md R6). -/
structure Config where
  /-- `MEM_CAPACITY`: the number of addressable cells (00_scope.md R6, 20_memory.md R200). -/
  memCapacity : Nat
  deriving DecidableEq, Repr

/-- The capacities 00_scope.md R6 allows: `1 <= MEM_CAPACITY <= 2^62`. -/
abbrev Config.Legal (c : Config) : Prop :=
  1 ≤ c.memCapacity ∧ c.memCapacity ≤ 4611686018427387904

/-- `MEM_CAPACITY = 2^62`, what 00_scope.md R6 names for a model that wants memory "as large as possible".
DESIGN CHOICE, unsafe for a claim about the reset state alone (notes/assumptions/2.md). -/
def Config.largest : Config := ⟨4611686018427387904⟩

/-- `RESET_CLEARS_INPUT`, fixed to true by 00_scope.md R6 (92_eei_decisions.md D11). -/
def resetClearsInput : Bool := true

end Sys2Proof
end

