-- ==== Sys2Proof/Machine/State.lean ====
section
/-! DEFINITION. The state of one core instance as plain data (10_state.md R100), the state after reset
(70_reset_and_hazards.md R900), and the reasons a step can stop. -/

namespace Sys2Proof.Machine

/-- The run state `rs` (10_state.md R109). -/
inductive RunState where
  | ready
  | running
  | awaitingInput
  | halted
  | faulted
  deriving DecidableEq, Repr

/-- The fault causes of 60_exceptions.md R800; the value None of 10_state.md R110 is `none` of `Option Cause`, so that
no fault can be raised without a cause (DEDUCED, safe; notes/assumptions/13.md). -/
inductive Cause where
  | illegalInstruction
  | negativeAddress
  | capacityExceeded
  | arithmeticOverflow
  deriving DecidableEq, Repr

/-- Memory (10_state.md R104): address and value pairs, addresses strictly rising, no value 0. An unlisted address reads
0, as 10_state.md R105 says of a cell never written. The unit is the 64-bit cell, since 20_memory.md R201 gives cells no
bytes (DEDUCED, safe; notes/assumptions/3.md). -/
abbrev Memory := List (Nat × Word)

/-- The architectural state `(prog, mem, ext, pc, rb, InQ, OutQ, rs, fc)` of 10_state.md R100, beside the configuration of
the instance. -/
structure State where
  /-- The instance's parameters (00_scope.md R6); the model's own field, which nothing changes
  (DESIGN CHOICE; notes/assumptions/2.md). -/
  cfg  : Config
  /-- The program store (10_state.md R106). -/
  prog : List Word
  /-- Memory (10_state.md R104). -/
  mem  : Memory
  /-- The extent (10_state.md R105). -/
  ext  : Nat
  /-- The program counter, a natural number (10_state.md R102; notes/assumptions/14.md). -/
  pc   : Nat
  /-- The relative base (10_state.md R103). -/
  rb   : Word
  /-- `InQ`, oldest value first (10_state.md R107). -/
  inQ  : List Word
  /-- `OutQ`, oldest value first (10_state.md R108). -/
  outQ : List Word
  /-- The run state (10_state.md R109). -/
  rs   : RunState
  /-- The fault cause (10_state.md R110). -/
  fc   : Option Cause
  deriving DecidableEq, Repr

/-- Reasons for which the machine would stop without a next state: there are none. Every fault of 60_exceptions.md R800
has the effect of R801, a next state in which `rs = Faulted`, so nothing raises a value of this type (safe). -/
inductive Fault where
  deriving DecidableEq, Repr

/-- Reasons for which the model would give an instruction no meaning. -/
inductive Refusal where
  /-- Raised by an arm of `exec` whose instruction has no meaning yet; no arm is left so (safe). -/
  | notModelled (mnemonic : String)
  deriving DecidableEq, Repr

/-- The power-on state of an instance with parameters `cfg`, the state that `load([])` produces
(70_reset_and_hazards.md R900, 10_state.md R114). -/
def State.powerOn (cfg : Config) : State where
  cfg := cfg
  prog := []
  mem := []
  ext := 0
  pc := 0
  rb := 0#64
  inQ := []
  outQ := []
  rs := .ready
  fc := none

/-- The machine right after reset: the power-on state (70_reset_and_hazards.md R900) of an instance with the largest
capacity (DESIGN CHOICE for the capacity alone; notes/assumptions/2.md). -/
def State.reset : State := State.powerOn Config.largest

end Sys2Proof.Machine
end

