-- ==== Sys2Proof/Machine/Ops.lean ====
section
/-! DEFINITION. The shared operations: cells of memory, the state changes an instruction attempt is made of
(00_scope.md R13), the two access primitives (20_memory.md R210, R211), and taking a fault
(60_exceptions.md R801). There is no return from a fault (60_exceptions.md R811). -/

namespace Sys2Proof.Machine

/-- `mem(a)`: 0 where nothing is listed (10_state.md R105). -/
def Memory.cell : Memory → Nat → Word
  | [], _ => 0#64
  | (k, v) :: m, a => if k = a then v else Memory.cell m a

/-- `mem(a) <- v`, keeping the canonical form: storing 0 removes the entry. -/
def Memory.store : Memory → Nat → Word → Memory
  | [], a, v => if v = 0#64 then [] else [(a, v)]
  | (k, w) :: m, a, v =>
    if k < a then (k, w) :: Memory.store m a v
    else if k = a then (if v = 0#64 then m else (a, v) :: m)
    else (if v = 0#64 then (k, w) :: m else (a, v) :: (k, w) :: m)

/-- The canonical form from address `lo` on: addresses strictly rising, no value 0. -/
def Memory.wfFrom (lo : Nat) : Memory → Bool
  | [] => true
  | (k, v) :: m => decide (lo ≤ k) && decide (v ≠ 0#64) && Memory.wfFrom (k + 1) m

/-- The canonical form of memory. -/
def Memory.wf (m : Memory) : Bool := Memory.wfFrom 0 m

/-- Every listed cell is within the extent `n`, so every cell at `n` or above holds 0 (10_state.md R105). -/
def Memory.within (m : Memory) (n : Nat) : Bool := m.all fun c => decide (c.1 < n)

/-- Memory that holds the values `P` from address `k` on and 0 elsewhere. -/
def Memory.imageFrom : Nat → List Word → Memory
  | _, [] => []
  | k, v :: P => if v = 0#64 then Memory.imageFrom (k + 1) P else (k, v) :: Memory.imageFrom (k + 1) P

/-- Memory as a copy of a program store: `mem(a) = P[a]` (10_state.md R114). -/
def Memory.image (P : List Word) : Memory := Memory.imageFrom 0 P

/-- Growth of the extent by an access at `a`: `ext <- max(ext, a + 1)` (20_memory.md R210, R211, R212). -/
def State.grow (s : State) (a : Nat) : State := { s with ext := max s.ext (a + 1) }

/-- `mem(a) <- v`. -/
def State.putCell (s : State) (a : Nat) (v : Word) : State := { s with mem := s.mem.store a v }

/-- `retire(npc)`: `pc <- npc`, and `rs` stays Running (00_scope.md R13). -/
def State.retire (s : State) (npc : Nat) : State := { s with pc := npc }

/-- `suspend`: `rs <- AwaitingInput` and no other effect (42_io.md R500). -/
def State.suspend (s : State) : State := { s with rs := .awaitingInput }

/-- The HALT outcome: `rs <- Halted`, `pc <- 0` (46_halt.md R700). -/
def State.halt (s : State) : State := { s with rs := .halted, pc := 0 }

/-- The effect of a fault, the only trap entry of the core: `rs <- Faulted`, `fc <- c`, nothing else
(60_exceptions.md R801). The state it is applied to holds the growth made before the fault (20_memory.md R212). -/
def State.takeFault (s : State) (c : Cause) : State := { s with rs := .faulted, fc := some c }

/-- A part of an instruction attempt: it goes on with a value, or it has raised a fault (00_scope.md R13). In both cases the
state holds what the part did before. -/
inductive Attempt (α : Type) where
  | ok (v : α) (s : State)
  | raised (c : Cause) (s : State)
  deriving DecidableEq, Repr

/-- The part `k` after the part `x`; a raised fault ends the attempt (40_engine.md R411). -/
def Attempt.bind {α β : Type} (x : Attempt α) (k : α → State → Attempt β) : Attempt β :=
  match x with
  | .ok v s => k v s
  | .raised c s => .raised c s

/-- The end of an instruction attempt as a step of the machine: the state it left, or the fault taken
(00_scope.md R13, 60_exceptions.md R801). -/
def Attempt.finish (x : Attempt Unit) : Host.Outcome State Fault Refusal :=
  match x with
  | .ok _ s => .next s
  | .raised c s => .next (s.takeFault c)

/-- The address checks of 20_memory.md R210 and R211, in their order. -/
def State.addressFault (s : State) (a : Int) : Option Cause :=
  if a < 0 then some .negativeAddress
  else if (s.cfg.memCapacity : Int) ≤ a then some .capacityExceeded
  else none

/-- `MemRead(a, 1)` (20_memory.md R210). -/
def memRead (a : Int) (s : State) : Attempt Word :=
  match s.addressFault a with
  | some c => .raised c s
  | none => .ok (s.mem.cell a.toNat) (s.grow a.toNat)

/-- `MemWrite(a, 1, v)` (20_memory.md R211). -/
def memWrite (a : Int) (v : Word) (s : State) : Attempt Unit :=
  match s.addressFault a with
  | some c => .raised c s
  | none => .ok () ((s.grow a.toNat).putCell a.toNat v)

/-- `Enqueue(OutQ, v)` (00_scope.md R12, 42_io.md R510). -/
def State.enqueueOut (s : State) (v : Word) : State := { s with outQ := s.outQ ++ [v] }

/-- `InQ <- tail(InQ)`, the dequeue (00_scope.md R12, 42_io.md R501). -/
def State.dequeueIn (s : State) : State := { s with inQ := s.inQ.tail }

/-- `rb <- v` (45_relbase.md R650). -/
def State.setBase (s : State) (v : Word) : State := { s with rb := v }

end Sys2Proof.Machine
end

