-- ==== Sys2Proof/Machine/Flags.lean ====
section
/-! DEFINITION. The ALU operations of 40_engine.md R414 with their tests. The core has no flags (10_state.md R111): a
comparison gives a value, and the only condition an operation reports is `ArithmeticOverflow`. -/

namespace Sys2Proof.Machine

/-- `fits64(v)`: `v` is in `i64` (00_scope.md R8). -/
abbrev fits64 (v : Int) : Prop := -9223372036854775808 ≤ v ∧ v ≤ 9223372036854775807

/-- The word of an exact result, or `ArithmeticOverflow` (41_arithmetic.md R470). -/
def checked (r : Int) (s : State) : Attempt Word :=
  if fits64 r then .ok (Word.ofInt r) s else .raised .arithmeticOverflow s

/-- `add(a, b)` of 40_engine.md R414. -/
def aluAdd (a b : Word) (s : State) : Attempt Word := checked (a.toInt + b.toInt) s

/-- `mul(a, b)` of 40_engine.md R414. -/
def aluMul (a b : Word) (s : State) : Attempt Word := checked (a.toInt * b.toInt) s

/-- `lt(a, b)` of 40_engine.md R414, signed. -/
def aluLt (a b : Word) (s : State) : Attempt Word := .ok (if a.toInt < b.toInt then 1#64 else 0#64) s

/-- `eq(a, b)` of 40_engine.md R414. -/
def aluEq (a b : Word) (s : State) : Attempt Word := .ok (if a.toInt = b.toInt then 1#64 else 0#64) s

/-- `nz(a)` of 40_engine.md R414. -/
def aluNz (a : Word) : Bool := decide (a.toInt ≠ 0)

end Sys2Proof.Machine
end

