-- ==== Sys2Proof/Machine/Operands.lean ====
section
/-! DEFINITION. Operand resolution in the three modes, and the result write (40_engine.md R403 to R405). -/

namespace Sys2Proof.Machine

/-- The effective address of an operand, on mathematical integers; an Immediate operand has none (40_engine.md R404). -/
def effAddr (o : Operand) (s : State) : Option Int :=
  match o.mode with
  | .position => some o.raw.toInt
  | .immediate => none
  | .relative => some (s.rb.toInt + o.raw.toInt)

/-- `ReadOp(k)` (40_engine.md R403). -/
def readOp (o : Operand) (s : State) : Attempt Word :=
  match effAddr o s with
  | none => .ok o.raw s
  | some a => memRead a s

/-- The destination check that `Decode` makes before any parameter is fetched (30_encoding.md R307 (b)). The engine never
reaches it with an Immediate destination; an instruction given to `exec` directly raises the same fault
(DEDUCED, safe; notes/assumptions/10.md). -/
def requireDest (o : Operand) (s : State) : Attempt Unit :=
  if o.isDest then .ok () s else .raised .illegalInstruction s

/-- `WriteOp(d, v) = MemWrite(EA(d), 1, v)` (40_engine.md R405). -/
def writeOp (o : Operand) (v : Word) (s : State) : Attempt Unit :=
  match effAddr o s with
  | none => .raised .illegalInstruction s
  | some a => memWrite a v s

end Sys2Proof.Machine
end

