-- ==== Sys2Proof/Machine/Arithmetic.lean ====
section
/-! DEFINITION. ADD and MUL (41_arithmetic.md R450, R460), and the shape they share with LT and EQ. -/

namespace Sys2Proof.Machine

/-- An instruction of three operands: read slot 1, then slot 2, compute and test the result, write slot 3, advance by 4
(40_engine.md R411, R413). -/
def threeOperand (alu : Word → Word → State → Attempt Word) (a b dst : Operand) (s : State) : Attempt Unit :=
  (requireDest dst s).bind fun _ s0 =>
  (readOp a s0).bind fun x s1 =>
  (readOp b s1).bind fun y s2 =>
  (alu x y s2).bind fun r s3 =>
  (writeOp dst r s3).bind fun _ s4 =>
  .ok () (s4.retire (s4.pc + 4))

/-- ADD: `dst = a + b`, exact (41_arithmetic.md R450). -/
def execAdd (a b dst : Operand) (s : State) : Host.Outcome State Fault Refusal :=
  (threeOperand aluAdd a b dst s).finish

/-- MUL: `dst = a * b`, exact (41_arithmetic.md R460). -/
def execMul (a b dst : Operand) (s : State) : Host.Outcome State Fault Refusal :=
  (threeOperand aluMul a b dst s).finish

end Sys2Proof.Machine
end

