-- ==== Sys2Proof/Machine/Compare.lean ====
section
/-! DEFINITION. LT and EQ (44_compare.md R600, R610). -/

namespace Sys2Proof.Machine

/-- LT: 1 if `a < b` as signed integers, else 0 (44_compare.md R600). -/
def execLt (a b dst : Operand) (s : State) : Host.Outcome State Fault Refusal :=
  (threeOperand aluLt a b dst s).finish

/-- EQ: 1 if `a = b`, else 0 (44_compare.md R610). -/
def execEq (a b dst : Operand) (s : State) : Host.Outcome State Fault Refusal :=
  (threeOperand aluEq a b dst s).finish

end Sys2Proof.Machine
end

