-- ==== Sys2Proof/Machine/Halt.lean ====
section
/-! DEFINITION. HALT (46_halt.md R700). -/

namespace Sys2Proof.Machine

/-- HALT: `rs = Halted` and `pc = 0`; memory, extent, relative base and queues stay (46_halt.md R700). -/
def execHalt (s : State) : Host.Outcome State Fault Refusal :=
  (Attempt.ok () s.halt).finish

end Sys2Proof.Machine
end

