-- ==== Sys2Proof/Machine/InOut.lean ====
section
/-! DEFINITION. IN and OUT (42_io.md R500, R501, R510). -/

namespace Sys2Proof.Machine

/-- IN: an empty queue suspends with `pc` unchanged; otherwise the oldest value is written, and dequeued once the write has
succeeded (42_io.md R500, R501). -/
def execIn (dst : Operand) (s : State) : Host.Outcome State Fault Refusal :=
  ((requireDest dst s).bind fun _ s0 =>
    match s0.inQ with
    | [] => .ok () s0.suspend
    | v :: _ =>
      (writeOp dst v s0).bind fun _ s1 =>
      .ok () (s1.dequeueIn.retire (s1.pc + 2))).finish

/-- OUT: `enqueue(output, a)`; the output queue is unbounded (42_io.md R510, R522). -/
def execOut (a : Operand) (s : State) : Host.Outcome State Fault Refusal :=
  ((readOp a s).bind fun x s1 =>
    .ok () ((s1.enqueueOut x).retire (s1.pc + 2))).finish

end Sys2Proof.Machine
end

