-- ==== Sys2Proof/Machine/Jump.lean ====
section
/-! DEFINITION. JT and JF (43_jumps.md R550, R552, R560). -/

namespace Sys2Proof.Machine

/-- A taken jump: a negative target faults and leaves `pc` alone; any other target is written, whatever the capacity
(43_jumps.md R550, R552). -/
def jumpTo (t : Word) (s : State) : Attempt Unit :=
  if t.toInt < 0 then .raised .negativeAddress s else .ok () (s.retire t.toInt.toNat)

/-- JT: both operands are read, then the jump is taken if `a` is not 0 (43_jumps.md R550). -/
def execJt (a target : Operand) (s : State) : Host.Outcome State Fault Refusal :=
  ((readOp a s).bind fun x s1 =>
    (readOp target s1).bind fun t s2 =>
    if aluNz x then jumpTo t s2 else .ok () (s2.retire (s2.pc + 3))).finish

/-- JF: both operands are read, then the jump is taken if `a` is 0 (43_jumps.md R560). -/
def execJf (a target : Operand) (s : State) : Host.Outcome State Fault Refusal :=
  ((readOp a s).bind fun x s1 =>
    (readOp target s1).bind fun t s2 =>
    if aluNz x then .ok () (s2.retire (s2.pc + 3)) else jumpTo t s2).finish

end Sys2Proof.Machine
end

