-- ==== Sys2Proof/Machine/RelBase.lean ====
section
/-! DEFINITION. SREL (45_relbase.md R650). -/

namespace Sys2Proof.Machine

/-- SREL: `rb + a`, exact, with the operand read through the old `rb` (45_relbase.md R650). -/
def execSrel (a : Operand) (s : State) : Host.Outcome State Fault Refusal :=
  ((readOp a s).bind fun x s1 =>
    (aluAdd s1.rb x s1).bind fun r s2 =>
    .ok () ((s2.setBase r).retire (s2.pc + 2))).finish

end Sys2Proof.Machine
end

