-- ==== Sys2Proof/Machine/Fetch.lean ====
section
/-! DEFINITION. The fetch of the instruction word and its parameters (40_engine.md R401, R402), and placing cells where the
next fetch reads them. -/

namespace Sys2Proof.Machine

/-- `n` parameters from address `a` on, in slot order (40_engine.md R402). -/
def fetchParams : Nat → Int → State → Attempt (List Word)
  | 0, _, s => .ok [] s
  | n + 1, a, s =>
    (memRead a s).bind fun p s1 =>
    (fetchParams n (a + 1) s1).bind fun ps s2 =>
    .ok (p :: ps) s2

/-- The parameters of a decoded word at `pc`, or the fault of an illegal word, raised before any parameter is fetched
(40_engine.md R402, 30_encoding.md R310). -/
def fetchRest (d : Except DecodeError Header) (s : State) : Attempt Instr :=
  match d with
  | .error _ => .raised .illegalInstruction s
  | .ok h => (fetchParams h.op.nops (s.pc + 1) s).bind fun ps s1 => .ok (h.instr ps) s1

/-- The instruction at `pc`: fetch the word, decode it, fetch the parameters (40_engine.md R401, R402, R411). -/
def fetchInstr (s : State) : Attempt Instr :=
  (memRead s.pc s).bind fun w s1 => fetchRest (decodeWord w) s1

/-- Cells stored one after another from address `a` on, within the extent. -/
def placeCells (a : Nat) : List Word → State → State
  | [], s => s
  | v :: vs, s => placeCells (a + 1) vs ((s.grow a).putCell a v)

/-- The fetched instruction goes to its body; a fault of the fetch is taken (40_engine.md R410, 60_exceptions.md R801). -/
def Attempt.dispatch (x : Attempt Instr) (body : Instr → State → Host.Outcome State Fault Refusal) :
    Host.Outcome State Fault Refusal :=
  match x with
  | .ok i s => body i s
  | .raised c s => .next (s.takeFault c)

end Sys2Proof.Machine
end

