-- ==== Sys2Proof/Machine/Step.lean ====
section
/-! DEFINITION. The step of the engine (40_engine.md R400, R410), and the state in which the next step runs a given
instruction. -/

namespace Sys2Proof.Machine

/-- One step: one instruction attempt while `rs = Running`. In every other run state the engine takes no step, so the state
stays (40_engine.md R400; DEDUCED, safe; notes/assumptions/4.md). -/
def step (s : State) : Host.Outcome State Fault Refusal :=
  if s.rs = .running then (fetchInstr s).dispatch exec else .next s

/-- `s` with the instruction whose cells are the number `w` placed at `pc` and the engine Running, which is what a load of
that instruction and a run command amount to (DESIGN CHOICE, safe; notes/assumptions/5.md, 12.md). -/
def State.withFetchWord (s : State) (nbits w : Nat) : State :=
  { placeCells s.pc (tableCells nbits w) s with rs := .running, fc := none }

end Sys2Proof.Machine
end

