-- ==== Sys2Proof/Machine/Driver.lean ====
section
/-! DEFINITION. The driver command interface (48_driver_commands.md R750 to R773): each command is one transaction on the
state, with its response. -/

namespace Sys2Proof.Machine

/-- The code the state command returns (10_state.md R109). -/
def RunState.code : RunState → Nat
  | .ready => 0
  | .running => 1
  | .awaitingInput => 2
  | .halted => 3
  | .faulted => 4

/-- The code the inspection command returns (10_state.md R110). -/
def causeCode : Option Cause → Nat
  | none => 0
  | some .illegalInstruction => 1
  | some .negativeAddress => 2
  | some .capacityExceeded => 3
  | some .arithmeticOverflow => 4

/-- The commands of 48_driver_commands.md R751. -/
inductive Command where
  | load (P : List Word)
  | reset
  | write (v : Word)
  | run
  | canRead
  | read
  | state
  | peek (a : Int)
  | extent
  | getPC
  | getRB
  | faultCause
  | inCount
  deriving DecidableEq, Repr

/-- The responses of 48_driver_commands.md R751. -/
inductive Response where
  /-- The command returns nothing: reset and write. -/
  | done
  /-- An accepted load. -/
  | accepted
  /-- A refused load or peek, or any command while a run is in progress. -/
  | refused
  /-- A run-state or fault-cause code. -/
  | code (n : Nat)
  /-- The Boolean of canRead. -/
  | flag (b : Bool)
  /-- The pair of read. -/
  | value (v : Word) (ok : Bool)
  /-- A cell or the relative base. -/
  | word (v : Word)
  /-- The extent, the program counter or the number of queued inputs. -/
  | number (n : Nat)
  deriving DecidableEq, Repr

/-- The effect of `reset()` (48_driver_commands.md R760, 10_state.md R114). -/
def resetEffect (s : State) : State :=
  { s with
    mem := Memory.image s.prog
    ext := s.prog.length
    pc := 0
    rb := 0#64
    outQ := []
    inQ := if resetClearsInput then [] else s.inQ
    fc := none
    rs := .ready }

/-- The effect and response of `load(P)` (48_driver_commands.md R761). -/
def loadEffect (P : List Word) (s : State) : Response × State :=
  if s.cfg.memCapacity < P.length then (.refused, s)
  else (.accepted, resetEffect { s with prog := P })

/-- The effect of `write(v)`: it only appends to `InQ` (48_driver_commands.md R762). -/
def writeEffect (v : Word) (s : State) : State := { s with inQ := s.inQ ++ [v] }

/-- The effect and response of `read()`; on an empty queue the value is 0 with `ok = false`
(48_driver_commands.md R765; notes/assumptions/8.md). -/
def readEffect (s : State) : Response × State :=
  match s.outQ with
  | [] => (.value 0#64 false, s)
  | v :: q => (.value v true, { s with outQ := q })

/-- The response of `peek(a)`, which does not grow the extent (48_driver_commands.md R768). -/
def peekResponse (a : Int) (s : State) : Response :=
  match s.addressFault a with
  | some _ => .refused
  | none => .word (s.mem.cell a.toNat)

/-- What `run()` does before its loop: Ready and AwaitingInput become Running, Halted and Faulted stay
(48_driver_commands.md R763). -/
def beginRun (s : State) : State :=
  match s.rs with
  | .ready => { s with rs := .running }
  | .running => s
  | .awaitingInput => { s with rs := .running }
  | .halted => s
  | .faulted => s

/-- The loop of `run()`, with at most `n` steps: `none` when the engine is still Running after them
(48_driver_commands.md R763; DEDUCED, safe; notes/assumptions/6.md). -/
def runLoop : Nat → State → Option State
  | 0, s => if s.rs = .running then none else some s
  | n + 1, s =>
    if s.rs = .running then
      match step s with
      | .next t => runLoop n t
      | .fault _ => none
      | .refused _ => none
    else some s

/-- One command as one transaction: its response and the state after it, or `none` where a run command has not returned
within `n` steps. While a run is in progress no command is accepted (48_driver_commands.md R750, R751;
notes/assumptions/6.md, 7.md). -/
def issueWithin (n : Nat) (c : Command) (s : State) : Option (Response × State) :=
  if s.rs = .running then some (.refused, s)
  else
    match c with
    | .load P => some (loadEffect P s)
    | .reset => some (.done, resetEffect s)
    | .write v => some (.done, writeEffect v s)
    | .run => (runLoop n (beginRun s)).map fun t => (.code t.rs.code, t)
    | .canRead => some (.flag (decide (s.outQ ≠ [])), s)
    | .read => some (readEffect s)
    | .state => some (.code s.rs.code, s)
    | .peek a => some (peekResponse a s, s)
    | .extent => some (.number s.ext, s)
    | .getPC => some (.number s.pc, s)
    | .getRB => some (.word s.rb, s)
    | .faultCause => some (.code (causeCode s.fc), s)
    | .inCount => some (.number s.inQ.length, s)

end Sys2Proof.Machine
end

