-- ==== Sys2Proof/Machine/Instances.lean ====
section
/-! DEFINITION. Several instances of the core (60_exceptions.md R840): each has its own state, and a command reaches one
instance alone. -/

namespace Sys2Proof.Machine

/-- The instances a driver controls, in an order of the driver's (DEDUCED, safe; notes/assumptions/11.md). -/
abbrev Instances := List State

/-- A command issued to instance `k`; `none` where there is no such instance or its run has not returned within `n` steps. -/
def issueAt (n k : Nat) (c : Command) (cores : Instances) : Option (Response × Instances) :=
  match cores[k]? with
  | none => none
  | some s =>
    match issueWithin n c s with
    | none => none
    | some (r, t) => some (r, cores.set k t)

end Sys2Proof.Machine
end

