-- ==== Sys2Proof/Safety.lean ====
section
/-! DEFINITION. The terms claims are stated in: the invariant of 10_state.md R115, the states a driver can reach, what an
operand's value is and where it faults, and equality of states apart from the extent. -/

namespace Sys2Proof.Machine

/-- The word at `pc` decodes to IN (10_state.md R115 (6)). -/
def atIn (s : State) : Bool :=
  match decodeWord (s.mem.cell s.pc) with
  | .ok h => decide (h.op = .inp)
  | .error _ => false

/-- The invariants of 10_state.md R115, with the bounds of R100, R102, R105 and 00_scope.md R6, the canonical form of
memory, and, for a suspended IN, the growth its fetch has made (42_io.md R500). -/
abbrev State.Inv (s : State) : Prop :=
  s.cfg.Legal ∧
  s.mem.wf = true ∧
  s.mem.within s.ext = true ∧
  s.prog.length ≤ s.ext ∧
  s.ext ≤ s.cfg.memCapacity ∧
  s.pc ≤ 9223372036854775807 ∧
  (s.fc = none ↔ s.rs ≠ .faulted) ∧
  (s.rs = .awaitingInput → atIn s = true ∧ s.pc + 2 ≤ s.ext)

/-- The states reached from power-on by driver commands, those inside a run included: a run begins, and then the engine
steps (48_driver_commands.md R763, 70_reset_and_hazards.md R900). -/
inductive Reachable (cfg : Config) : State → Prop where
  | powerOn : Reachable cfg (State.powerOn cfg)
  | command (n : Nat) (c : Command) (s : State) (r : Response) (t : State) :
      Reachable cfg s → issueWithin n c s = some (r, t) → Reachable cfg t
  | runBegins (s : State) : Reachable cfg s → Reachable cfg (beginRun s)
  | steps (s t : State) : Reachable cfg s → step s = .next t → Reachable cfg t

/-- A run issued in `s` returns in state `t` (48_driver_commands.md R763). -/
def RunReturns (s t : State) : Prop :=
  ∃ n, issueWithin n .run s = some (.code t.rs.code, t)

/-- The fault of reading or writing through an operand, if any; an Immediate operand has none (60_exceptions.md R802). -/
def operandFault (o : Operand) (s : State) : Option Cause :=
  match effAddr o s with
  | none => none
  | some a => s.addressFault a

/-- The value of an operand whose address is in range (40_engine.md R403). -/
def operandValue (o : Operand) (s : State) : Word :=
  match effAddr o s with
  | none => o.raw
  | some a => s.mem.cell a.toNat

/-- The state after reading an operand whose address is in range: only the extent may have grown (20_memory.md R210). -/
def afterRead (o : Operand) (s : State) : State :=
  match effAddr o s with
  | none => s
  | some a => s.grow a.toNat

/-- The `n` cells of memory from address `a` on, lowest first (30_encoding.md R301). -/
def Memory.cellsFrom (m : Memory) (a n : Nat) : List Word :=
  (List.range n).map fun k => m.cell (a + k)

/-- Two states that differ at most in the extent (10_state.md R113). -/
abbrev sameButExt (s t : State) : Prop := { s with ext := 0 } = { t with ext := 0 }

/-- Two outcomes that are next states differing at most in the extent. -/
def Outcome.sameButExt (x y : Host.Outcome State Fault Refusal) : Prop :=
  match x, y with
  | .next s, .next t => Machine.sameButExt s t
  | .next _, .fault _ => False
  | .next _, .refused _ => False
  | .fault _, _ => False
  | .refused _, _ => False

/-- Two source operands that both have a value, the same one (40_engine.md R406). -/
abbrev SameSource (a b : Operand) (s : State) : Prop :=
  operandFault a s = none ∧ operandFault b s = none ∧ operandValue a s = operandValue b s

/-- Two encodings of one opcode that give every source slot the same value and the destination the same effective address
(40_engine.md R406). -/
def SameEffectOperands (i j : Instr) (s : State) : Prop :=
  match i, j with
  | .add a b d, .add a' b' d' => SameSource a a' s ∧ SameSource b b' s ∧ effAddr d s = effAddr d' s
  | .mul a b d, .mul a' b' d' => SameSource a a' s ∧ SameSource b b' s ∧ effAddr d s = effAddr d' s
  | .inp d, .inp d' => effAddr d s = effAddr d' s
  | .out a, .out a' => SameSource a a' s
  | .jt a t, .jt a' t' => SameSource a a' s ∧ SameSource t t' s
  | .jf a t, .jf a' t' => SameSource a a' s ∧ SameSource t t' s
  | .lt a b d, .lt a' b' d' => SameSource a a' s ∧ SameSource b b' s ∧ effAddr d s = effAddr d' s
  | .eq a b d, .eq a' b' d' => SameSource a a' s ∧ SameSource b b' s ∧ effAddr d s = effAddr d' s
  | .srel a, .srel a' => SameSource a a' s
  | .halt, .halt => True
  | _, _ => False

/-- The fault causes the table of 60_exceptions.md R802 gives an instruction. -/
def mayRaise : Instr → List Cause
  | .add _ _ _ => [.negativeAddress, .capacityExceeded, .arithmeticOverflow]
  | .mul _ _ _ => [.negativeAddress, .capacityExceeded, .arithmeticOverflow]
  | .inp _ => [.negativeAddress, .capacityExceeded]
  | .out _ => [.negativeAddress, .capacityExceeded]
  | .jt _ _ => [.negativeAddress, .capacityExceeded]
  | .jf _ _ => [.negativeAddress, .capacityExceeded]
  | .lt _ _ _ => [.negativeAddress, .capacityExceeded]
  | .eq _ _ _ => [.negativeAddress, .capacityExceeded]
  | .srel _ => [.negativeAddress, .capacityExceeded, .arithmeticOverflow]
  | .halt => []

/-- The legal words of each opcode, written out from the table of 30_encoding.md R311. -/
def legalWords : Opcode → List Int
  | .add => [1, 101, 201, 1001, 1101, 1201, 2001, 2101, 2201,
      20001, 20101, 20201, 21001, 21101, 21201, 22001, 22101, 22201]
  | .mul => [2, 102, 202, 1002, 1102, 1202, 2002, 2102, 2202,
      20002, 20102, 20202, 21002, 21102, 21202, 22002, 22102, 22202]
  | .inp => [3, 203]
  | .out => [4, 104, 204]
  | .jt => [5, 105, 205, 1005, 1105, 1205, 2005, 2105, 2205]
  | .jf => [6, 106, 206, 1006, 1106, 1206, 2006, 2106, 2206]
  | .lt => [7, 107, 207, 1007, 1107, 1207, 2007, 2107, 2207,
      20007, 20107, 20207, 21007, 21107, 21207, 22007, 22107, 22207]
  | .eq => [8, 108, 208, 1008, 1108, 1208, 2008, 2108, 2208,
      20008, 20108, 20208, 21008, 21108, 21208, 22008, 22108, 22208]
  | .srel => [9, 109, 209]
  | .halt => [99]

end Sys2Proof.Machine
end

