-- ==== Sys2Proof/Certificates/Slice0/Obligations.lean ====
section
/-! DEFINITION. The statements for the provers, from the numbered rules of the spec. -/

open Sys2Proof Sys2Proof.Machine

/-! ### Encoding and decoding -/

/-- Decoding the cells of a well-formed instruction gives the instruction back and leaves the cells after it
(30_encoding.md R301, R303, R305). -/
def Obligations.DecodeOfEncodeIsIdentity : Prop :=
  ∀ (i : Instr) (rest : List Word), i.wellFormed = true → decode (encode i ++ rest) = .ok (i, rest)

/-- Cells that decode are the encoding of the well-formed instruction they decode to, so no two encodings share a meaning
and no reserved word has one (30_encoding.md R305, R311, R314).
It rests on the spec's own decisions D4 to D6 (92_eei_decisions.md; log entry 9). -/
def Obligations.DecodedCellsAreTheEncoding : Prop :=
  ∀ (cells : List Word) (i : Instr) (rest : List Word),
    decode cells = .ok (i, rest) → i.wellFormed = true ∧ cells = encode i ++ rest

/-- `Decode(w)` of 30_encoding.md R305: the word decodes to a header exactly when no check of the rule fails and the
fields are the header's.
It rests on the spec's own decisions D4 to D6 (92_eei_decisions.md; log entry 9). -/
def Obligations.DecoderFollowsTheDigitChecks : Prop :=
  ∀ (w : Word) (h : Header),
    decodeWord w = .ok h ↔
      0 ≤ w.toInt ∧
      w.toInt % 100 = h.op.number ∧
      w.toInt / 100000 = 0 ∧
      w.toInt / 100 % 10 = h.m1.digit ∧
      w.toInt / 1000 % 10 = h.m2.digit ∧
      w.toInt / 10000 % 10 = h.m3.digit ∧
      (h.op.nops < 1 → h.m1.digit = 0) ∧
      (h.op.nops < 2 → h.m2.digit = 0) ∧
      (h.op.nops < 3 → h.m3.digit = 0) ∧
      (h.op.dstSlot = some 1 → h.m1.digit ≠ 1) ∧
      (h.op.dstSlot = some 2 → h.m2.digit ≠ 1) ∧
      (h.op.dstSlot = some 3 → h.m3.digit ≠ 1)

/-- The legal words of each mnemonic are the listed ones, every other word is illegal, and they are 99
(30_encoding.md R311).
It rests on the spec's own decisions D4 to D6 (92_eei_decisions.md; log entry 9). -/
def Obligations.LegalWordsAreTheListed99 : Prop :=
  (∀ (w : Word) (op : Opcode), (∃ h, decodeWord w = .ok h ∧ h.op = op) ↔ w.toInt ∈ legalWords op) ∧
  ([Opcode.add, .mul, .inp, .out, .jt, .jf, .lt, .eq, .srel, .halt].map fun op => (legalWords op).length) =
    [18, 18, 2, 3, 9, 9, 18, 18, 3, 1]

/-- Cells written out by hand from the encodings of 30_encoding.md R303 and R320, one for each family and mode. -/
def Obligations.WrittenOutCellsDecode : Prop :=
  decode [1001#64, 20#64, BitVec.ofInt 64 (-1), 20#64] =
    .ok (.add ⟨.position, 20#64⟩ ⟨.immediate, BitVec.ofInt 64 (-1)⟩ ⟨.position, 20#64⟩, []) ∧
  decode [203#64, 7#64] = .ok (.inp ⟨.relative, 7#64⟩, []) ∧
  decode [204#64, BitVec.ofInt 64 (-1)] = .ok (.out ⟨.relative, BitVec.ofInt 64 (-1)⟩, []) ∧
  decode [2105#64, 0#64, 9#64] = .ok (.jt ⟨.immediate, 0#64⟩ ⟨.relative, 9#64⟩, []) ∧
  decode [21108#64, 5#64, 6#64, 7#64] =
    .ok (.eq ⟨.immediate, 5#64⟩ ⟨.immediate, 6#64⟩ ⟨.relative, 7#64⟩, []) ∧
  decode [109#64, 1#64] = .ok (.srel ⟨.immediate, 1#64⟩, []) ∧
  decode [99#64] = .ok (.halt, [])

/-- A word whose low two digits are no opcode does not decode, and a fetched word that does not decode makes the engine
Faulted with cause `IllegalInstruction`, only the cell of the word touched, and no further step is taken
(30_encoding.md R306, R310; 20_memory.md R212; 60_exceptions.md R801).
It rests on the spec's own decision D8 for the state after the fault (92_eei_decisions.md; log entry 9), and the form of
"no further step" is the model's (log entry 4). -/
def Obligations.IllegalWordFaultsBeforeItsParameters : Prop :=
  ∀ s : State, s.rs = .running → s.pc < s.cfg.memCapacity →
    ((s.mem.cell s.pc).toInt % 100 ∉ [1, 2, 3, 4, 5, 6, 7, 8, 9, 99] →
      ∃ e, decodeWord (s.mem.cell s.pc) = .error e) ∧
    ((∃ e, decodeWord (s.mem.cell s.pc) = .error e) →
      step s = .next { s with ext := max s.ext (s.pc + 1), rs := .faulted, fc := some .illegalInstruction } ∧
      step { s with ext := max s.ext (s.pc + 1), rs := .faulted, fc := some .illegalInstruction } =
        .next { s with ext := max s.ext (s.pc + 1), rs := .faulted, fc := some .illegalInstruction })

/-- `JMP`, `MOV` and `NOP` are the encodings of 30_encoding.md R321, `NOP` advances `pc` by 3 and does nothing else, and
`JMP` to an Immediate target that is not negative goes there.
It rests on the spec's own decision D19 (92_eei_decisions.md; log entry 9). -/
def Obligations.PseudoInstructionsExpand : Prop :=
  (∀ n : Word, encode (pseudoJmp ⟨.immediate, n⟩) = [1105#64, 1#64, n]) ∧
  (∀ a d : Operand, encode (pseudoMov a d) =
    [BitVec.ofNat 64 (1 + 100 * a.mode.digit + 1000 * 1 + 10000 * d.mode.digit), a.raw, 0#64, d.raw]) ∧
  encode pseudoNop = [1106#64, 1#64, 0#64] ∧
  (∀ s : State, exec pseudoNop s = .next { s with pc := s.pc + 3 }) ∧
  (∀ (n : Word) (s : State), 0 ≤ n.toInt →
    exec (pseudoJmp ⟨.immediate, n⟩) s = .next { s with pc := n.toInt.toNat })

/-! ### The engine: fetch and step -/

/-- When the cells at `pc` decode to an instruction and all of them are below the capacity, a step is the body of that
instruction, in the state whose extent covers the fetched cells (40_engine.md R401, R402, R410). -/
def Obligations.StepRunsTheDecodedInstruction : Prop :=
  ∀ (s : State) (i : Instr), s.rs = .running →
    decode (s.mem.cellsFrom s.pc i.length) = .ok (i, []) →
    s.pc + i.length ≤ s.cfg.memCapacity →
    step s = exec i { s with ext := max s.ext (s.pc + i.length) }

/-- The engine takes no step unless it is Running (40_engine.md R400; the form of "no step" is the model's, log entry 4). -/
def Obligations.IdleEngineTakesNoStep : Prop :=
  ∀ s : State, s.rs ≠ .running → step s = .next s

/-- A fetch at or beyond the capacity faults `CapacityExceeded`, and a fetch beyond the extent reads 0, grows the extent to
`pc + 1` and faults `IllegalInstruction` (40_engine.md R401).
It rests on the spec's own decisions D3, D8 (92_eei_decisions.md; log entry 9). -/
def Obligations.WordFetchBeyondTheProgramFaults : Prop :=
  ∀ s : State, s.rs = .running →
    (s.cfg.memCapacity ≤ s.pc →
      step s = .next { s with rs := .faulted, fc := some .capacityExceeded }) ∧
    (s.mem.within s.ext = true → s.ext ≤ s.pc → s.pc < s.cfg.memCapacity →
      step s = .next { s with ext := s.pc + 1, rs := .faulted, fc := some .illegalInstruction })

/-- When the word at `pc` is legal but one of its parameters lies at or beyond the capacity, the step faults
`CapacityExceeded` with the extent grown to the capacity (40_engine.md R402; 60_exceptions.md R803 (3)).
It rests on the spec's own decisions D3, D7, D8 (92_eei_decisions.md; log entry 9). -/
def Obligations.ParameterFetchBeyondCapacityFaults : Prop :=
  ∀ (s : State) (h : Header), s.rs = .running → decodeWord (s.mem.cell s.pc) = .ok h →
    s.pc < s.cfg.memCapacity → s.cfg.memCapacity < s.pc + 1 + h.op.nops →
    step s = .next
      { s with ext := max s.ext s.cfg.memCapacity, rs := .faulted, fc := some .capacityExceeded }

/-! ### Memory -/

/-- `MemRead` and `MemWrite` case by case: the two address checks, the growth, the value, the one cell written
(20_memory.md R210, R211).
It rests on the spec's own decisions D2, D3 (92_eei_decisions.md; log entry 9). -/
def Obligations.MemoryAccessPrimitives : Prop :=
  ∀ (a : Int) (v : Word) (s : State),
    (a < 0 → memRead a s = .raised .negativeAddress s ∧ memWrite a v s = .raised .negativeAddress s) ∧
    (0 ≤ a → s.cfg.memCapacity ≤ a →
      memRead a s = .raised .capacityExceeded s ∧ memWrite a v s = .raised .capacityExceeded s) ∧
    (0 ≤ a → a < s.cfg.memCapacity →
      memRead a s = .ok (s.mem.cell a.toNat) { s with ext := max s.ext (a.toNat + 1) } ∧
      memWrite a v s =
        .ok () { s with mem := s.mem.store a.toNat v, ext := max s.ext (a.toNat + 1) })

/-- In a canonical memory a store changes the one cell it addresses and keeps the canonical form (20_memory.md R215). -/
def Obligations.StoreChangesOneCell : Prop :=
  ∀ (m : Memory) (a b : Nat) (v : Word), m.wf = true →
    (m.store a v).cell b = (if b = a then v else m.cell b) ∧ (m.store a v).wf = true

/-- Two canonical memories with the same cells are the same data, so `mem` is the total function of 10_state.md R104. -/
def Obligations.CanonicalMemoriesWithEqualCellsAreEqual : Prop :=
  ∀ m m' : Memory, m.wf = true → m'.wf = true → (∀ a, m.cell a = m'.cell a) → m = m'

/-- A write is what the next read of that address returns, from the state the write leaves (20_memory.md R220, R224). -/
def Obligations.ReadReturnsTheLatestWrite : Prop :=
  ∀ (a : Int) (v : Word) (s s' : State), s.mem.wf = true →
    memWrite a v s = .ok () s' → memRead a s' = .ok v s'

/-- Growth (20_memory.md R212): after a successful access at `A >= ext` the extent is `A + 1`, the cells from the old extent
to `A` read 0 and a written value stands at `A`; an access below the extent leaves it.
It rests on the spec's own decisions D2, D3 (92_eei_decisions.md; log entry 9). -/
def Obligations.GrowthOfTheExtent : Prop :=
  ∀ (a : Int) (v x : Word) (s r w : State), s.mem.wf = true → s.mem.within s.ext = true →
    memRead a s = .ok x r → memWrite a v s = .ok () w →
    ((s.ext : Int) ≤ a →
      (r.ext : Int) = a + 1 ∧ (w.ext : Int) = a + 1 ∧ x = 0#64 ∧ w.mem.cell a.toNat = v ∧
      ∀ b : Nat, s.ext ≤ b → (b : Int) < a → r.mem.cell b = 0#64 ∧ w.mem.cell b = 0#64) ∧
    (a < s.ext → r.ext = s.ext ∧ w.ext = s.ext ∧ w.mem.cell a.toNat = v)

/-- No step lets the extent shrink, none takes it past the capacity, and none changes the program store or the
configuration (10_state.md R105, R106; 20_memory.md R218). -/
def Obligations.StepsOnlyGrowTheExtent : Prop :=
  ∀ s t : State, step s = .next t →
    s.ext ≤ t.ext ∧ (s.ext ≤ s.cfg.memCapacity → t.ext ≤ s.cfg.memCapacity) ∧
    t.prog = s.prog ∧ t.cfg = s.cfg

/-! ### Operands -/

/-- `ReadOp` by mode: the cell at the raw parameter, the raw parameter itself, the cell at `rb` plus the raw parameter
(40_engine.md R403). -/
def Obligations.OperandReadByMode : Prop :=
  ∀ (p : Word) (s : State),
    readOp ⟨.position, p⟩ s = memRead p.toInt s ∧
    readOp ⟨.immediate, p⟩ s = .ok p s ∧
    readOp ⟨.relative, p⟩ s = memRead (s.rb.toInt + p.toInt) s

/-- The effective address by mode, on mathematical integers, and with the relative base the instruction started with:
reading an operand does not change it (40_engine.md R404). -/
def Obligations.EffectiveAddressByMode : Prop :=
  ∀ (p : Word) (s : State),
    effAddr ⟨.position, p⟩ s = some p.toInt ∧
    effAddr ⟨.immediate, p⟩ s = none ∧
    effAddr ⟨.relative, p⟩ s = some (s.rb.toInt + p.toInt) ∧
    ∀ (o d : Operand) (v : Word) (s' : State), readOp o s = .ok v s' → effAddr d s' = effAddr d s

/-- A result is written with `MemWrite` at the effective address, in Position and Relative mode, and the decoder gives no
instruction an Immediate destination (40_engine.md R405).
It rests on the spec's own decision D6 (92_eei_decisions.md; log entry 9). -/
def Obligations.ResultWriteGoesToTheEffectiveAddress : Prop :=
  (∀ (p v : Word) (s : State),
    writeOp ⟨.position, p⟩ v s = memWrite p.toInt v s ∧
    writeOp ⟨.relative, p⟩ v s = memWrite (s.rb.toInt + p.toInt) v s) ∧
  (∀ (cells rest : List Word) (i : Instr) (d : Operand),
    decode cells = .ok (i, rest) → i.dest? = some d → d.mode ≠ .immediate)

/-- Two encodings of one opcode that give the source slots the same values and the destination the same effective address
have the same effects apart from the growth of the extent (40_engine.md R406). -/
def Obligations.ModesWithTheSameOperandsAgree : Prop :=
  ∀ (i j : Instr) (s : State), SameEffectOperands i j s → Outcome.sameButExt (exec i s) (exec j s)

/-- An instruction with an Immediate destination given to `exec`, which the decoder never does, takes the fault
`IllegalInstruction` and nothing else happens (30_encoding.md R307 (b); the model's choice, log entry 10). -/
def Obligations.ImmediateDestinationIsIllegal : Prop :=
  ∀ (i : Instr) (s : State), i.wellFormed = false →
    exec i s = .next { s with rs := .faulted, fc := some .illegalInstruction }

/-! ### The instructions: what each does, on every operand form, and what it leaves -/

/-- ADD (41_arithmetic.md R450): the faults of the sources in slot order, overflow, the fault of the destination, and
otherwise the exact sum of the old values at the destination, `pc + 4`, and nothing else but the growth of the extent.
It rests on the spec's own decisions D1 to D3, D7, D8 (92_eei_decisions.md; log entry 9). -/
def Obligations.AddWritesTheExactSum : Prop :=
  ∀ (a b d : Operand) (s : State) (e : Int), effAddr d s = some e →
    (∀ c, operandFault a s = some c → exec (.add a b d) s = .next (s.takeFault c)) ∧
    (∀ c, operandFault a s = none → operandFault b s = some c →
      exec (.add a b d) s = .next ((afterRead a s).takeFault c)) ∧
    (operandFault a s = none → operandFault b s = none →
      ¬ fits64 ((operandValue a s).toInt + (operandValue b s).toInt) →
      exec (.add a b d) s = .next ((afterRead b (afterRead a s)).takeFault .arithmeticOverflow)) ∧
    (∀ c, operandFault a s = none → operandFault b s = none →
      fits64 ((operandValue a s).toInt + (operandValue b s).toInt) → s.addressFault e = some c →
      exec (.add a b d) s = .next ((afterRead b (afterRead a s)).takeFault c)) ∧
    (∀ r : Word, operandFault a s = none → operandFault b s = none → s.addressFault e = none →
      r.toInt = (operandValue a s).toInt + (operandValue b s).toInt →
      exec (.add a b d) s = .next
        { s with
          mem := s.mem.store e.toNat r
          ext := max (afterRead b (afterRead a s)).ext (e.toNat + 1)
          pc := s.pc + 4 })

/-- MUL (41_arithmetic.md R460): as ADD, with the exact product.
It rests on the spec's own decisions D1 to D3, D7, D8 (92_eei_decisions.md; log entry 9). -/
def Obligations.MulWritesTheExactProduct : Prop :=
  ∀ (a b d : Operand) (s : State) (e : Int), effAddr d s = some e →
    (∀ c, operandFault a s = some c → exec (.mul a b d) s = .next (s.takeFault c)) ∧
    (∀ c, operandFault a s = none → operandFault b s = some c →
      exec (.mul a b d) s = .next ((afterRead a s).takeFault c)) ∧
    (operandFault a s = none → operandFault b s = none →
      ¬ fits64 ((operandValue a s).toInt * (operandValue b s).toInt) →
      exec (.mul a b d) s = .next ((afterRead b (afterRead a s)).takeFault .arithmeticOverflow)) ∧
    (∀ c, operandFault a s = none → operandFault b s = none →
      fits64 ((operandValue a s).toInt * (operandValue b s).toInt) → s.addressFault e = some c →
      exec (.mul a b d) s = .next ((afterRead b (afterRead a s)).takeFault c)) ∧
    (∀ r : Word, operandFault a s = none → operandFault b s = none → s.addressFault e = none →
      r.toInt = (operandValue a s).toInt * (operandValue b s).toInt →
      exec (.mul a b d) s = .next
        { s with
          mem := s.mem.store e.toNat r
          ext := max (afterRead b (afterRead a s)).ext (e.toNat + 1)
          pc := s.pc + 4 })

/-- LT (44_compare.md R600): the faults of the sources in slot order, the fault of the destination, and otherwise 1 or 0 by
the signed comparison of the old values.
It rests on the spec's own decisions D2, D3, D7, D8 (92_eei_decisions.md; log entry 9). -/
def Obligations.LtWritesTheSignedComparison : Prop :=
  ∀ (a b d : Operand) (s : State) (e : Int), effAddr d s = some e →
    (∀ c, operandFault a s = some c → exec (.lt a b d) s = .next (s.takeFault c)) ∧
    (∀ c, operandFault a s = none → operandFault b s = some c →
      exec (.lt a b d) s = .next ((afterRead a s).takeFault c)) ∧
    (∀ c, operandFault a s = none → operandFault b s = none → s.addressFault e = some c →
      exec (.lt a b d) s = .next ((afterRead b (afterRead a s)).takeFault c)) ∧
    (∀ r : Word, operandFault a s = none → operandFault b s = none → s.addressFault e = none →
      r.toInt = (if (operandValue a s).toInt < (operandValue b s).toInt then 1 else 0) →
      exec (.lt a b d) s = .next
        { s with
          mem := s.mem.store e.toNat r
          ext := max (afterRead b (afterRead a s)).ext (e.toNat + 1)
          pc := s.pc + 4 })

/-- EQ (44_compare.md R610): as LT, with 1 or 0 by the equality of the old values.
It rests on the spec's own decisions D2, D3, D7, D8 (92_eei_decisions.md; log entry 9). -/
def Obligations.EqWritesTheEquality : Prop :=
  ∀ (a b d : Operand) (s : State) (e : Int), effAddr d s = some e →
    (∀ c, operandFault a s = some c → exec (.eq a b d) s = .next (s.takeFault c)) ∧
    (∀ c, operandFault a s = none → operandFault b s = some c →
      exec (.eq a b d) s = .next ((afterRead a s).takeFault c)) ∧
    (∀ c, operandFault a s = none → operandFault b s = none → s.addressFault e = some c →
      exec (.eq a b d) s = .next ((afterRead b (afterRead a s)).takeFault c)) ∧
    (∀ r : Word, operandFault a s = none → operandFault b s = none → s.addressFault e = none →
      r.toInt = (if operandValue a s = operandValue b s then 1 else 0) →
      exec (.eq a b d) s = .next
        { s with
          mem := s.mem.store e.toNat r
          ext := max (afterRead b (afterRead a s)).ext (e.toNat + 1)
          pc := s.pc + 4 })

/-- IN (42_io.md R500, R501): an empty queue suspends whatever the destination; otherwise a bad destination faults with the
value not consumed, and a good one receives the oldest value, which leaves the queue.
It rests on the spec's own decisions D2, D3, D8, D20 (92_eei_decisions.md; log entry 9). -/
def Obligations.InTransfersTheOldestInput : Prop :=
  ∀ (d : Operand) (s : State) (e : Int), effAddr d s = some e →
    (s.inQ = [] → exec (.inp d) s = .next { s with rs := .awaitingInput }) ∧
    (∀ (v : Word) (q : List Word) (c : Cause), s.inQ = v :: q → s.addressFault e = some c →
      exec (.inp d) s = .next (s.takeFault c)) ∧
    (∀ (v : Word) (q : List Word), s.inQ = v :: q → s.addressFault e = none →
      exec (.inp d) s = .next
        { s with
          mem := s.mem.store e.toNat v
          ext := max s.ext (e.toNat + 1)
          inQ := q
          pc := s.pc + 2 })

/-- OUT (42_io.md R510): a bad source faults with the queue unchanged; otherwise the value goes to the young end.
It rests on the spec's own decisions D2, D3, D8, D15 (92_eei_decisions.md; log entry 9). -/
def Obligations.OutAppendsItsOperand : Prop :=
  ∀ (a : Operand) (s : State),
    (∀ c, operandFault a s = some c → exec (.out a) s = .next (s.takeFault c)) ∧
    (operandFault a s = none →
      exec (.out a) s = .next
        { s with
          ext := (afterRead a s).ext
          outQ := s.outQ ++ [operandValue a s]
          pc := s.pc + 2 })

/-- JT (43_jumps.md R550): both operands are read, taken or not; the jump is taken exactly when the first is not 0, to any
target that is not negative.
It rests on the spec's own decisions D2, D3, D7, D8 (92_eei_decisions.md; log entry 9). -/
def Obligations.JtJumpsWhenNotZero : Prop :=
  ∀ (a b : Operand) (s : State),
    (∀ c, operandFault a s = some c → exec (.jt a b) s = .next (s.takeFault c)) ∧
    (∀ c, operandFault a s = none → operandFault b s = some c →
      exec (.jt a b) s = .next ((afterRead a s).takeFault c)) ∧
    (operandFault a s = none → operandFault b s = none →
      (operandValue a s).toInt ≠ 0 → 0 ≤ (operandValue b s).toInt →
      exec (.jt a b) s = .next
        { s with ext := (afterRead b (afterRead a s)).ext, pc := (operandValue b s).toInt.toNat }) ∧
    (operandFault a s = none → operandFault b s = none → (operandValue a s).toInt = 0 →
      exec (.jt a b) s = .next { s with ext := (afterRead b (afterRead a s)).ext, pc := s.pc + 3 })

/-- JF (43_jumps.md R560): as JT, taken exactly when the first operand is 0.
It rests on the spec's own decisions D2, D3, D7, D8 (92_eei_decisions.md; log entry 9). -/
def Obligations.JfJumpsWhenZero : Prop :=
  ∀ (a b : Operand) (s : State),
    (∀ c, operandFault a s = some c → exec (.jf a b) s = .next (s.takeFault c)) ∧
    (∀ c, operandFault a s = none → operandFault b s = some c →
      exec (.jf a b) s = .next ((afterRead a s).takeFault c)) ∧
    (operandFault a s = none → operandFault b s = none →
      (operandValue a s).toInt = 0 → 0 ≤ (operandValue b s).toInt →
      exec (.jf a b) s = .next
        { s with ext := (afterRead b (afterRead a s)).ext, pc := (operandValue b s).toInt.toNat }) ∧
    (operandFault a s = none → operandFault b s = none → (operandValue a s).toInt ≠ 0 →
      exec (.jf a b) s = .next { s with ext := (afterRead b (afterRead a s)).ext, pc := s.pc + 3 })

/-- A taken JT or JF whose target is negative faults `NegativeAddress`, and `pc` keeps the address of the jump
(43_jumps.md R552).
It rests on the spec's own decisions D8, D9 (92_eei_decisions.md; log entry 9). -/
def Obligations.TakenJumpToNegativeTargetFaults : Prop :=
  ∀ (a b : Operand) (s : State), operandFault a s = none → operandFault b s = none →
    (operandValue b s).toInt < 0 →
    ((operandValue a s).toInt ≠ 0 →
      exec (.jt a b) s = .next
        { s with ext := (afterRead b (afterRead a s)).ext, rs := .faulted, fc := some .negativeAddress }) ∧
    ((operandValue a s).toInt = 0 →
      exec (.jf a b) s = .next
        { s with ext := (afterRead b (afterRead a s)).ext, rs := .faulted, fc := some .negativeAddress })

/-- SREL (45_relbase.md R650): a bad source or an overflow faults with `rb` unchanged; otherwise `rb` becomes the exact sum,
the operand read through the old `rb`.
It rests on the spec's own decisions D1 to D3, D8 (92_eei_decisions.md; log entry 9). -/
def Obligations.SrelAddsToTheRelativeBase : Prop :=
  ∀ (a : Operand) (s : State),
    (∀ c, operandFault a s = some c → exec (.srel a) s = .next (s.takeFault c)) ∧
    (operandFault a s = none → ¬ fits64 (s.rb.toInt + (operandValue a s).toInt) →
      exec (.srel a) s = .next ((afterRead a s).takeFault .arithmeticOverflow)) ∧
    (∀ r : Word, operandFault a s = none → r.toInt = s.rb.toInt + (operandValue a s).toInt →
      exec (.srel a) s = .next { s with ext := (afterRead a s).ext, rb := r, pc := s.pc + 2 })

/-- HALT (46_halt.md R700): the single legal word 99, one cell long; the run state is Halted and `pc` 0, all else is
unchanged, no further step is taken and a later run does nothing.
It rests on the spec's own decisions D5, D10, D17 (92_eei_decisions.md; log entry 9).
The form of "no step" is the model's (log entry 4). -/
def Obligations.HaltStopsTheEngine : Prop :=
  (∀ w : Word, (∃ h, decodeWord w = .ok h ∧ h.op = .halt) ↔ w.toInt = 99) ∧
  Instr.length .halt = 1 ∧
  ∀ s : State,
    exec .halt s = .next { s with rs := .halted, pc := 0 } ∧
    step { s with rs := .halted, pc := 0 } = .next { s with rs := .halted, pc := 0 } ∧
    ∀ n, issueWithin n .run { s with rs := .halted, pc := 0 } =
      some (.code 3, { s with rs := .halted, pc := 0 })

/-- An instruction that retires without a taken jump advances `pc` by its length, and where its last parameter was below a
legal capacity the new `pc` stays in range (40_engine.md R413). -/
def Obligations.SequentialAdvanceIsTheLength : Prop :=
  ∀ (i : Instr) (s t : State), exec i s = .next t → s.rs = .running → t.rs = .running →
    (∀ a b, i = .jt a b → (operandValue a s).toInt = 0) →
    (∀ a b, i = .jf a b → (operandValue a s).toInt ≠ 0) →
    t.pc = s.pc + 1 + i.opcode.nops ∧
    (s.cfg.Legal → s.pc + i.opcode.nops < s.cfg.memCapacity → t.pc ≤ 9223372036854775807)

/-! ### Frames -/

/-- The frame of ADD, MUL, LT and EQ: only the cell at the destination's effective address, the extent, `pc` and, for a
fault, the run state and the cause change (10_state.md R112; 20_memory.md R215).
It rests on the spec's own decision D8 (92_eei_decisions.md; log entry 9). -/
def Obligations.ThreeOperandFrame : Prop :=
  ∀ (i : Instr) (a b d : Operand) (s t : State) (e : Int),
    (i = .add a b d ∨ i = .mul a b d ∨ i = .lt a b d ∨ i = .eq a b d) →
    effAddr d s = some e → exec i s = .next t →
    (∀ x : Nat, (x : Int) ≠ e → t.mem.cell x = s.mem.cell x) ∧
    t.cfg = s.cfg ∧ t.prog = s.prog ∧ t.rb = s.rb ∧ t.inQ = s.inQ ∧ t.outQ = s.outQ ∧
    ((t.rs = s.rs ∧ t.fc = s.fc) ∨ (t.rs = .faulted ∧ t.mem = s.mem ∧ t.pc = s.pc))

/-- The frame of IN: only the cell at the destination's effective address, the input queue, the extent, `pc`, the run state
and, for a fault, the cause change (10_state.md R112; 20_memory.md R215).
It rests on the spec's own decision D8 (92_eei_decisions.md; log entry 9). -/
def Obligations.InFrame : Prop :=
  ∀ (d : Operand) (s t : State) (e : Int), effAddr d s = some e → exec (.inp d) s = .next t →
    (∀ x : Nat, (x : Int) ≠ e → t.mem.cell x = s.mem.cell x) ∧
    t.cfg = s.cfg ∧ t.prog = s.prog ∧ t.rb = s.rb ∧ t.outQ = s.outQ ∧
    ((t.rs = s.rs ∧ t.fc = s.fc ∧ t.inQ = s.inQ.tail) ∨
      (t.rs = .awaitingInput ∧ t.fc = s.fc ∧ t.inQ = s.inQ ∧ t.mem = s.mem ∧ t.pc = s.pc) ∨
      (t.rs = .faulted ∧ t.inQ = s.inQ ∧ t.mem = s.mem ∧ t.pc = s.pc))

/-- The frame of the instructions that store nothing, OUT, JT, JF, SREL and HALT: memory and the input queue stay; the
output queue changes for OUT alone, the relative base for SREL alone, the run state for HALT and a fault alone
(10_state.md R112).
It rests on the spec's own decision D8 (92_eei_decisions.md; log entry 9). -/
def Obligations.NonStoringFrame : Prop :=
  ∀ (i : Instr) (s t : State), i.dest? = none → exec i s = .next t →
    (∀ x : Nat, t.mem.cell x = s.mem.cell x) ∧
    t.cfg = s.cfg ∧ t.prog = s.prog ∧ t.inQ = s.inQ ∧
    (i.opcode ≠ .out → t.outQ = s.outQ) ∧
    (i.opcode ≠ .srel → t.rb = s.rb) ∧
    (i.opcode ≠ .halt →
      (t.rs = s.rs ∧ t.fc = s.fc) ∨
      (t.rs = .faulted ∧ t.outQ = s.outQ ∧ t.rb = s.rb ∧ t.pc = s.pc)) ∧
    (i.opcode = .halt → t.rs = .halted ∧ t.fc = s.fc ∧ t.ext = s.ext)

/-! ### Faults, suspension and the run-state machine -/

/-- A fault is precise: the step that faults changes the run state, the cause and, by growth, the extent, and nothing else;
the engine takes no further step, and the driver sees Faulted in what the run in progress and `state()` return
(60_exceptions.md R801).
It rests on the spec's own decisions D8, D17 (92_eei_decisions.md; log entry 9).
The form of "no step" is the model's (log entry 4). -/
def Obligations.FaultsArePrecise : Prop :=
  ∀ s t : State, s.rs = .running → step s = .next t → t.rs = .faulted →
    (∃ c, t = { s with ext := t.ext, rs := .faulted, fc := some c }) ∧ s.ext ≤ t.ext ∧ step t = .next t ∧
    (∀ n, runLoop (n + 1) s = some t) ∧ ∀ n, issueWithin n .state t = some (.code 4, t)

/-- Each well-formed instruction raises only the faults that the table of 60_exceptions.md R802 gives it.
It rests on the spec's own decisions D1 to D3, D9 (92_eei_decisions.md; log entry 9). -/
def Obligations.OnlyTheTabledFaultsAreRaised : Prop :=
  ∀ (i : Instr) (s t : State), i.wellFormed = true → exec i s = .next t → s.rs = .running → t.rs = .faulted →
    ∃ c, c ∈ mayRaise i ∧ t.fc = some c

/-- Suspension (42_io.md R500): a Running engine at an IN with an empty input queue becomes AwaitingInput, with no other
change but the growth made by the fetch, the run returns that state, and there is no other way to suspend. -/
def Obligations.OnlyInOnEmptyInputSuspends : Prop :=
  ∀ s t : State, s.rs = .running → step s = .next t →
    (t.rs = .awaitingInput ↔ s.inQ = [] ∧ ∃ d s1, fetchInstr s = .ok (.inp d) s1) ∧
    (t.rs = .awaitingInput →
      t = { s with ext := max s.ext (s.pc + 2), rs := .awaitingInput } ∧ ∀ n, runLoop (n + 1) s = some t)

/-- Which instruction a step must have run for a piece of state to change (10_state.md R112): `rb` SREL, `InQ` IN, `OutQ`
OUT, a cell ADD, MUL, IN, LT or EQ, the run state Halted HALT. -/
def Obligations.EachChangeHasItsInstruction : Prop :=
  ∀ s t : State, s.rs = .running → step s = .next t →
    (t.rb ≠ s.rb → ∃ a s1, fetchInstr s = .ok (.srel a) s1) ∧
    (t.inQ ≠ s.inQ → ∃ d s1, fetchInstr s = .ok (.inp d) s1) ∧
    (t.outQ ≠ s.outQ → ∃ a s1, fetchInstr s = .ok (.out a) s1) ∧
    ((∃ x, t.mem.cell x ≠ s.mem.cell x) → ∃ i d s1, fetchInstr s = .ok i s1 ∧ i.dest? = some d) ∧
    (t.rs = .halted ↔ ∃ s1, fetchInstr s = .ok .halt s1)

/-- The queues are FIFO (20_memory.md R221): a step removes at most the oldest input and adds at most one output, at the
young end. -/
def Obligations.QueuesAreFifo : Prop :=
  ∀ s t : State, step s = .next t →
    (t.inQ = s.inQ ∨ ∃ v, s.inQ = v :: t.inQ) ∧
    (t.outQ = s.outQ ∨ ∃ v, t.outQ = s.outQ ++ [v]) ∧
    (t.inQ = s.inQ ∨ t.outQ = s.outQ)

/-- The run-state machine (48_driver_commands.md R770): a step never makes the engine Ready, a command that returns leaves
it not Running, only reset and an accepted load make it Ready, and no command but these and run changes the run state.
It rests on the spec's own decisions D10, D22 (92_eei_decisions.md; log entry 9). -/
def Obligations.RunStateMachine : Prop :=
  (∀ s t : State, s.rs = .running → step s = .next t → t.rs ≠ .ready) ∧
  (∀ (n : Nat) (c : Command) (s t : State) (r : Response), s.rs ≠ .running →
    issueWithin n c s = some (r, t) →
    t.rs ≠ .running ∧
    (c = .reset ∨ (∃ P, c = .load P ∧ r = .accepted) → t.rs = .ready) ∧
    (c ≠ .reset → (∀ P, c = .load P → r ≠ .accepted) → c ≠ .run → t.rs = s.rs) ∧
    (c = .run → t.rs ≠ .ready))

/-! ### Invariants -/

/-- The invariant holds in the power-on state of every instance with a legal capacity, and at reset. -/
def Obligations.PowerOnSatisfiesTheInvariant : Prop :=
  (∀ cfg : Config, cfg.Legal → (State.powerOn cfg).Inv) ∧ State.reset.Inv

/-- Every step keeps the invariant, from every state that meets it (10_state.md R115). -/
def Obligations.StepKeepsTheInvariant : Prop :=
  ∀ s t : State, s.Inv → step s = .next t → t.Inv

/-- The invariants of 10_state.md R115 hold in every state reached from power-on by commands and steps; Running only while a
run is in progress says that the state is one the steps of a run issued in a reachable Ready or AwaitingInput state pass
through. -/
def Obligations.ReachableStatesMeetTheInvariants : Prop :=
  ∀ (cfg : Config) (s : State), cfg.Legal → Reachable cfg s →
    s.prog.length ≤ s.ext ∧
    (∀ a, s.ext ≤ a → s.mem.cell a = 0#64) ∧
    0 ≤ s.pc ∧
    (s.fc = none ↔ s.rs ≠ .faulted) ∧
    (s.rs = .running → ∃ (s0 : State) (k : Nat), Reachable cfg s0 ∧ (s0.rs = .ready ∨ s0.rs = .awaitingInput) ∧
      Sys2Proof.core.run k { s0 with rs := .running } = .next s) ∧
    (s.rs = .awaitingInput → ∃ h, decodeWord (s.mem.cell s.pc) = .ok h ∧ h.op = .inp) ∧
    s.Inv

/-- The extent is invisible to programs and to every command but its own inspection (10_state.md R113 (a)): two states that
differ in it alone step to states that differ in it alone, and answer every other command alike. -/
def Obligations.ExtentIsInvisible : Prop :=
  ∀ s s' : State, sameButExt s s' →
    Outcome.sameButExt (step s) (step s') ∧
    ∀ (n : Nat) (c : Command) (r : Response) (t : State), c ≠ .extent →
      issueWithin n c s = some (r, t) → ∃ t', issueWithin n c s' = some (r, t') ∧ sameButExt t t'

/-! ### Driver commands -/

/-- `reset()` (48_driver_commands.md R760; 70_reset_and_hazards.md R902): memory is the program store again, registers,
queues and cause are cleared, the run state is Ready, and a second reset changes nothing.
It rests on the spec's own decisions D11, D17 (92_eei_decisions.md; log entry 9). -/
def Obligations.ResetCommandEffect : Prop :=
  ∀ (n : Nat) (s : State), s.rs ≠ .running →
    ∃ t, issueWithin n .reset s = some (.done, t) ∧
      (∀ a, t.mem.cell a = s.prog.getD a 0#64) ∧ t.ext = s.prog.length ∧ t.pc = 0 ∧ t.rb = 0#64 ∧
      t.outQ = [] ∧ t.inQ = [] ∧ t.fc = none ∧ t.rs = .ready ∧ t.prog = s.prog ∧ t.cfg = s.cfg ∧
      issueWithin n .reset t = some (.done, t)

/-- `load(P)` (48_driver_commands.md R761): refused with no change when `P` is longer than the capacity, otherwise the
program store is `P` and the effect is that of a reset.
It rests on the spec's own decision D22 (92_eei_decisions.md; log entry 9). -/
def Obligations.LoadCommandEffect : Prop :=
  ∀ (n : Nat) (P : List Word) (s : State), s.rs ≠ .running →
    (s.cfg.memCapacity < P.length → issueWithin n (.load P) s = some (.refused, s)) ∧
    (P.length ≤ s.cfg.memCapacity →
      ∃ t, issueWithin n (.load P) s = some (.accepted, t) ∧ t.prog = P ∧
        issueWithin n .reset { s with prog := P } = some (.done, t))

/-- `write(v)` appends to the input queue, in every run state a command is accepted in, does nothing else, and starts or
resumes no execution: the engine takes no step after it (48_driver_commands.md R762).
It rests on the spec's own decision D24 (92_eei_decisions.md; log entry 9).
The form of "no step" is the model's (log entry 4). -/
def Obligations.WriteCommandOnlyQueues : Prop :=
  ∀ (n : Nat) (v : Word) (s : State), s.rs ≠ .running →
    issueWithin n (.write v) s = some (.done, { s with inQ := s.inQ ++ [v] }) ∧
    step { s with inQ := s.inQ ++ [v] } = .next { s with inQ := s.inQ ++ [v] }

/-- `read()` (48_driver_commands.md R765): the oldest output with `ok` true, or value 0 with `ok` false and no change. The
value 0 of an empty read is the spec's own choice (decision D12; log entry 8). -/
def Obligations.ReadCommand : Prop :=
  ∀ (n : Nat) (s : State), s.rs ≠ .running →
    (∀ (v : Word) (q : List Word), s.outQ = v :: q →
      issueWithin n .read s = some (.value v true, { s with outQ := q })) ∧
    (s.outQ = [] → issueWithin n .read s = some (.value 0#64 false, s))

/-- `state()` returns the code of the run state and `canRead()` whether the output queue is not empty; both change nothing
(48_driver_commands.md R766, R767; 10_state.md R109).
It rests on the spec's own decision D17 for the codes 0 to 4 (92_eei_decisions.md; log entry 9). -/
def Obligations.StateAndCanReadCommands : Prop :=
  ∀ (n : Nat) (s : State), s.rs ≠ .running →
    issueWithin n .state s = some (.code (match s.rs with
      | .ready => 0 | .running => 1 | .awaitingInput => 2 | .halted => 3 | .faulted => 4), s) ∧
    ∃ b, issueWithin n .canRead s = some (.flag b, s) ∧ (b = true ↔ s.outQ ≠ [])

/-- The inspection commands change nothing and return what 48_driver_commands.md R768 says; `peek` refuses an address outside
memory, reads 0 beyond the extent and does not grow the extent.
It rests on the spec's own decisions D16, D17 (92_eei_decisions.md; log entry 9). -/
def Obligations.InspectionCommands : Prop :=
  ∀ (n : Nat) (s : State), s.rs ≠ .running →
    (∀ a : Int, 0 ≤ a → a < s.cfg.memCapacity →
      issueWithin n (.peek a) s = some (.word (s.mem.cell a.toNat), s)) ∧
    (∀ a : Int, s.mem.within s.ext = true → s.ext ≤ a → a < s.cfg.memCapacity →
      issueWithin n (.peek a) s = some (.word 0#64, s)) ∧
    (∀ a : Int, a < 0 ∨ s.cfg.memCapacity ≤ a → issueWithin n (.peek a) s = some (.refused, s)) ∧
    issueWithin n .extent s = some (.number s.ext, s) ∧
    issueWithin n .getPC s = some (.number s.pc, s) ∧
    issueWithin n .getRB s = some (.word s.rb, s) ∧
    issueWithin n .faultCause s = some (.code (match s.fc with
      | none => 0 | some .illegalInstruction => 1 | some .negativeAddress => 2
      | some .capacityExceeded => 3 | some .arithmeticOverflow => 4), s) ∧
    issueWithin n .inCount s = some (.number s.inQ.length, s)

/-- `run()` (48_driver_commands.md R763): Halted and Faulted stay as they are; from Ready and AwaitingInput the command
returns exactly the states that the engine, set Running, reaches by steps and in which it is no longer Running.
It rests on the spec's own decisions D10, D17 (92_eei_decisions.md; log entry 9). -/
def Obligations.RunCommandStepsUntilNotRunning : Prop :=
  ∀ s : State,
    (s.rs = .halted → ∀ n, issueWithin n .run s = some (.code 3, s)) ∧
    (s.rs = .faulted → ∀ n, issueWithin n .run s = some (.code 4, s)) ∧
    (s.rs = .ready ∨ s.rs = .awaitingInput → ∀ t : State,
      RunReturns s t ↔
        t.rs ≠ .running ∧ ∃ n, Sys2Proof.core.run n { s with rs := .running } = .next t)

/-- Resume (42_io.md R502; 48_driver_commands.md R764): a run in AwaitingInput re-attempts the suspended IN; with the input
queue still empty it suspends again after one attempt and nothing has changed; after `write(x)` the same IN consumes `x`
and the engine goes on after it.
It rests on the spec's own decision D17 (92_eei_decisions.md; log entry 9). -/
def Obligations.ResumeReattemptsTheSuspendedIn : Prop :=
  ∀ (s : State) (d : Operand) (e : Int) (n : Nat), s.Inv → s.rs = .awaitingInput → s.inQ = [] →
    decode (s.mem.cellsFrom s.pc 2) = .ok (.inp d, []) → effAddr d s = some e →
    issueWithin (n + 1) .run s = some (.code 2, s) ∧
    ∀ x : Word, s.addressFault e = none →
      ∃ t, issueWithin n (.write x) s = some (.done, t) ∧
        step (beginRun t) = .next
          { s with
            mem := s.mem.store e.toNat x
            ext := max s.ext (e.toNat + 1)
            inQ := []
            pc := s.pc + 2
            rs := .running }

/-- While a run is in progress the interface accepts no command (48_driver_commands.md R750; the response `refused` is the
model's, log entry 7). -/
def Obligations.BusyInterfaceRefuses : Prop :=
  ∀ (n : Nat) (c : Command) (s : State), s.rs = .running → issueWithin n c s = some (.refused, s)

/-- A command to one instance leaves every other instance as it was, and its response and effect depend on that instance
alone (60_exceptions.md R840). -/
def Obligations.InstancesAreIndependent : Prop :=
  ∀ (n k : Nat) (c : Command) (cores cores' : Instances) (r : Response),
    issueAt n k c cores = some (r, cores') →
    cores'.length = cores.length ∧
    (∀ j, j ≠ k → cores'[j]? = cores[j]?) ∧
    ∃ s t, cores[k]? = some s ∧ issueWithin n c s = some (r, t) ∧ cores'[k]? = some t

/-- Power-on (70_reset_and_hazards.md R900): the power-on state is the one `load([])` produces, with the fields the rule
lists, and a run in it fetches 0 at address 0, grows the extent to 1 and faults `IllegalInstruction`.
It rests on the spec's own decisions D13, D17 (92_eei_decisions.md; log entry 9). -/
def Obligations.PowerOnIsTheEmptyLoad : Prop :=
  (∀ (n : Nat) (s : State), s.rs ≠ .running →
    issueWithin n (.load []) s = some (.accepted, State.powerOn s.cfg)) ∧
  (∀ cfg : Config,
    (State.powerOn cfg).prog = [] ∧ (∀ a, (State.powerOn cfg).mem.cell a = 0#64) ∧ (State.powerOn cfg).ext = 0 ∧
    (State.powerOn cfg).pc = 0 ∧ (State.powerOn cfg).rb = 0#64 ∧ (State.powerOn cfg).inQ = [] ∧
    (State.powerOn cfg).outQ = [] ∧ (State.powerOn cfg).rs = .ready ∧ (State.powerOn cfg).fc = none) ∧
  (∀ (n : Nat) (cfg : Config), cfg.Legal →
    issueWithin (n + 1) .run (State.powerOn cfg) =
      some (.code 4, { State.powerOn cfg with ext := 1, rs := .faulted, fc := some .illegalInstruction }))

/-- Halted and Faulted are terminal (48_driver_commands.md R763, R771): no step is taken, run changes nothing and returns
that state, and a command that leaves them is a reset or a load.
It rests on the spec's own decision D10 for run (92_eei_decisions.md; log entry 9), and the form of "no step" is the
model's (log entry 4). -/
def Obligations.HaltedAndFaultedAreTerminal : Prop :=
  ∀ s : State, s.rs = .halted ∨ s.rs = .faulted →
    step s = .next s ∧
    (∀ n, issueWithin n .run s = some (.code s.rs.code, s)) ∧
    ∀ (n : Nat) (c : Command) (r : Response) (t : State), issueWithin n c s = some (r, t) → t.rs ≠ s.rs →
      c = .reset ∨ ∃ P, c = .load P
end

