-- ==== Sys2Proof/Laws/Decode.lean ====
section
/-! SUPPORT. The parts of the decoder and the encoder, one lemma each: opcodes, modes, slots, the digits of an encoded
word. -/

namespace Sys2Proof

/-- The opcode column read both ways (30_encoding.md R300). -/
theorem opcodeOf_eq_some {n : Nat} {op : Opcode} : opcodeOf n = some op ↔ n = op.number := by
  constructor
  · intro h
    simp only [opcodeOf] at h
    repeat' split at h
    all_goals simp_all [Opcode.number]
    all_goals (subst h; rfl)
  · rintro rfl
    cases op <;> rfl

/-- The mode digits read both ways (30_encoding.md R304). -/
theorem modeOf_eq_some {d : Nat} {m : Mode} : modeOf d = some m ↔ d = m.digit := by
  constructor
  · intro h
    simp only [modeOf] at h
    repeat' split at h
    all_goals simp_all [Mode.digit]
    all_goals (subst h; rfl)
  · rintro rfl
    cases m <;> rfl

theorem Mode.digit_le (m : Mode) : m.digit ≤ 2 := by cases m <;> decide

theorem Mode.digit_eq_zero {m : Mode} : m.digit = 0 ↔ m = .position := by cases m <;> decide

theorem Mode.digit_eq_one {m : Mode} : m.digit = 1 ↔ m = .immediate := by cases m <;> decide

theorem Mode.digit_inj {m m' : Mode} : m.digit = m'.digit ↔ m = m' := by
  cases m <;> cases m' <;> decide

theorem Opcode.number_le (op : Opcode) : op.number ≤ 99 := by cases op <;> decide

theorem Opcode.number_inj {op op' : Opcode} : op.number = op'.number ↔ op = op' := by
  cases op <;> cases op' <;> decide

theorem Opcode.nops_le (op : Opcode) : op.nops ≤ 3 := by cases op <;> decide

/-- The legality of one slot (30_encoding.md R307). -/
theorem slotMode_eq_ok {op : Opcode} {k d : Nat} {m : Mode} :
    slotMode op k d = .ok m ↔
      d = m.digit ∧ (op.nops < k → d = 0) ∧ (op.dstSlot = some k → op.nops < k ∨ m ≠ .immediate) := by
  unfold slotMode
  by_cases hk : op.nops < k
  · by_cases hd : d = 0
    · subst hd
      cases m <;> simp [hk, Mode.digit]
    · simp [hk, hd]
  · cases hm : modeOf d with
    | none =>
      have hne : ∀ m' : Mode, d ≠ m'.digit := by
        intro m' he
        rw [modeOf_eq_some.mpr he] at hm
        cases hm
      simp [hk, hne m]
    | some m' =>
      have he := modeOf_eq_some.mp hm
      subst he
      simp only [hk, if_false, Mode.digit_inj]
      split
      · rename_i hc
        obtain ⟨hc, rfl⟩ := hc
        simp only [reduceCtorEq, false_iff, hc]
        rintro ⟨rfl, -, h⟩
        simp at h
      · rename_i hc
        constructor
        · intro h
          cases h
          exact ⟨rfl, by simp, fun h1 => .inr fun h2 => hc ⟨h1, h2⟩⟩
        · rintro ⟨rfl, -, -⟩
          rfl

/-- The digits of an encoded word are its fields (30_encoding.md R303). -/
theorem toInt_wordOf (op : Opcode) (m1 m2 m3 : Mode) :
    (wordOf op m1 m2 m3).toInt =
      ((op.number + 100 * m1.digit + 1000 * m2.digit + 10000 * m3.digit : Nat) : Int) := by
  have h1 := m1.digit_le
  have h2 := m2.digit_le
  have h3 := m3.digit_le
  have h4 := op.number_le
  unfold wordOf
  rw [BitVec.toInt_eq_toNat_of_lt]
  · rw [BitVec.toNat_ofNat, Nat.mod_eq_of_lt (by omega)]
  · rw [BitVec.toNat_ofNat, Nat.mod_eq_of_lt (by omega)]
    omega

/-- The cells of an instruction are as many as its length (30_encoding.md R302). -/
theorem length_operands (i : Instr) : i.operands.length = i.opcode.nops := by
  cases i <;> rfl

end Sys2Proof
end

