-- ==== Sys2Proof/Laws/Memory.lean ====
section
/-! SUPPORT. Laws of memory: a read after a write, the canonical form and what keeps it, the extent, and the image of a
program store. -/

namespace Sys2Proof.Machine

@[simp] theorem Memory.cell_nil (a : Nat) : Memory.cell [] a = 0#64 := rfl

theorem Memory.cell_cons (k : Nat) (v : Word) (m : Memory) (a : Nat) :
    Memory.cell ((k, v) :: m) a = if k = a then v else Memory.cell m a := rfl

theorem Memory.wfFrom_cons (lo k : Nat) (v : Word) (m : Memory) :
    Memory.wfFrom lo ((k, v) :: m) = true ↔ lo ≤ k ∧ v ≠ 0#64 ∧ Memory.wfFrom (k + 1) m = true := by
  simp [Memory.wfFrom, and_assoc]

theorem Memory.wfFrom_mono {m : Memory} {lo lo' : Nat} (h : Memory.wfFrom lo m = true) (hl : lo' ≤ lo) :
    Memory.wfFrom lo' m = true := by
  cases m with
  | nil => rfl
  | cons c m =>
    obtain ⟨k, v⟩ := c
    rw [Memory.wfFrom_cons] at h ⊢
    exact ⟨hl.trans h.1, h.2⟩

/-- A canonical memory lists nothing below its first address. -/
theorem Memory.cell_below {m : Memory} {lo a : Nat} (h : Memory.wfFrom lo m = true) (ha : a < lo) :
    m.cell a = 0#64 := by
  induction m generalizing lo with
  | nil => rfl
  | cons c m ih =>
    obtain ⟨k, v⟩ := c
    rw [Memory.wfFrom_cons] at h
    rw [Memory.cell_cons, if_neg (by omega)]
    exact ih h.2.2 (by omega)

theorem Memory.cell_store_other (m : Memory) {a b : Nat} (v : Word) (hab : b ≠ a) :
    (m.store a v).cell b = m.cell b := by
  induction m with
  | nil =>
    by_cases hv : v = 0#64
    · simp [Memory.store, hv]
    · simp [Memory.store, hv, Memory.cell_cons, hab.symm]
  | cons c m ih =>
    obtain ⟨k, w⟩ := c
    by_cases h1 : k < a
    · simp [Memory.store, h1, Memory.cell_cons, ih]
    · by_cases h2 : k = a
      · by_cases hv : v = 0#64
        · simp [Memory.store, h2, hv, Memory.cell_cons, hab.symm]
        · simp [Memory.store, h2, hv, Memory.cell_cons, hab.symm]
      · by_cases hv : v = 0#64
        · simp [Memory.store, h1, h2, hv]
        · simp [Memory.store, h1, h2, hv, Memory.cell_cons, hab.symm]

theorem Memory.cell_store_same {m : Memory} {lo : Nat} (h : Memory.wfFrom lo m = true) (a : Nat) (v : Word) :
    (m.store a v).cell a = v := by
  induction m generalizing lo with
  | nil =>
    by_cases hv : v = 0#64
    · simp [Memory.store, hv]
    · simp [Memory.store, hv, Memory.cell_cons]
  | cons c m ih =>
    obtain ⟨k, w⟩ := c
    rw [Memory.wfFrom_cons] at h
    by_cases h1 : k < a
    · have hk : k ≠ a := by omega
      simp [Memory.store, h1, Memory.cell_cons, hk, ih h.2.2]
    · by_cases h2 : k = a
      · by_cases hv : v = 0#64
        · have := Memory.cell_below h.2.2 (show a < k + 1 by omega)
          simp [Memory.store, h2, hv, this]
        · simp [Memory.store, h2, hv, Memory.cell_cons]
      · by_cases hv : v = 0#64
        · have := Memory.cell_below h.2.2 (show a < k + 1 by omega)
          simp [Memory.store, h1, h2, hv, Memory.cell_cons, this]
        · simp [Memory.store, h1, h2, hv, Memory.cell_cons]

theorem Memory.wfFrom_store {m : Memory} {lo : Nat} (h : Memory.wfFrom lo m = true) {a : Nat} (ha : lo ≤ a)
    (v : Word) : Memory.wfFrom lo (m.store a v) = true := by
  induction m generalizing lo with
  | nil =>
    by_cases hv : v = 0#64
    · simp [Memory.store, hv, Memory.wfFrom]
    · simp [Memory.store, hv, Memory.wfFrom, ha]
  | cons c m ih =>
    obtain ⟨k, w⟩ := c
    rw [Memory.wfFrom_cons] at h
    by_cases h1 : k < a
    · simpa [Memory.store, h1, Memory.wfFrom_cons, h.1, h.2.1] using ih h.2.2 (by omega)
    · by_cases h2 : k = a
      · by_cases hv : v = 0#64
        · simpa [Memory.store, h2, hv] using Memory.wfFrom_mono h.2.2 (by omega)
        · subst h2
          simpa [Memory.store, hv, Memory.wfFrom_cons, h.1] using h.2.2
      · by_cases hv : v = 0#64
        · simpa [Memory.store, h1, h2, hv, Memory.wfFrom_cons] using h
        · have hk : a + 1 ≤ k := by omega
          simpa [Memory.store, h1, h2, hv, Memory.wfFrom_cons, ha, hk] using h.2

/-- A store keeps the canonical form. -/
theorem Memory.wf_store {m : Memory} (h : m.wf = true) (a : Nat) (v : Word) : (m.store a v).wf = true :=
  Memory.wfFrom_store h (Nat.zero_le a) v

theorem Memory.within_cons (k : Nat) (v : Word) (m : Memory) (n : Nat) :
    Memory.within ((k, v) :: m) n = true ↔ k < n ∧ Memory.within m n = true := by
  simp [Memory.within]

theorem Memory.within_mono {m : Memory} {n n' : Nat} (h : m.within n = true) (hn : n ≤ n') :
    m.within n' = true := by
  induction m with
  | nil => rfl
  | cons c m ih =>
    obtain ⟨k, v⟩ := c
    rw [Memory.within_cons] at h ⊢
    exact ⟨by omega, ih h.2⟩

/-- Cells at or beyond the extent hold 0 (10_state.md R105). -/
theorem Memory.cell_beyond {m : Memory} {n a : Nat} (h : m.within n = true) (ha : n ≤ a) : m.cell a = 0#64 := by
  induction m with
  | nil => rfl
  | cons c m ih =>
    obtain ⟨k, v⟩ := c
    rw [Memory.within_cons] at h
    rw [Memory.cell_cons, if_neg (by omega)]
    exact ih h.2

theorem Memory.within_store {m : Memory} {n a : Nat} (h : m.within n = true) (ha : a < n) (v : Word) :
    (m.store a v).within n = true := by
  induction m with
  | nil =>
    by_cases hv : v = 0#64
    · simp [Memory.store, hv, Memory.within]
    · simp [Memory.store, hv, Memory.within, ha]
  | cons c m ih =>
    obtain ⟨k, w⟩ := c
    rw [Memory.within_cons] at h
    by_cases h1 : k < a
    · simpa [Memory.store, h1, Memory.within_cons, h.1] using ih h.2
    · by_cases h2 : k = a
      · by_cases hv : v = 0#64
        · simpa [Memory.store, h2, hv] using h.2
        · simpa [Memory.store, h2, hv, Memory.within_cons, ha] using h.2
      · by_cases hv : v = 0#64
        · simpa [Memory.store, h1, h2, hv, Memory.within_cons] using h
        · simpa [Memory.store, h1, h2, hv, Memory.within_cons, ha] using h

theorem Memory.wfFrom_imageFrom (k : Nat) (P : List Word) : Memory.wfFrom k (Memory.imageFrom k P) = true := by
  induction P generalizing k with
  | nil => rfl
  | cons v P ih =>
    by_cases hv : v = 0#64
    · simpa [Memory.imageFrom, hv] using Memory.wfFrom_mono (ih (k + 1)) (Nat.le_succ k)
    · simpa [Memory.imageFrom, hv, Memory.wfFrom_cons] using ih (k + 1)

theorem Memory.within_imageFrom (k : Nat) (P : List Word) :
    (Memory.imageFrom k P).within (k + P.length) = true := by
  induction P generalizing k with
  | nil => rfl
  | cons v P ih =>
    have h := ih (k + 1)
    have e : k + 1 + P.length = k + (P.length + 1) := by omega
    rw [e] at h
    by_cases hv : v = 0#64
    · simpa [Memory.imageFrom, hv] using h
    · simpa [Memory.imageFrom, hv, Memory.within_cons] using h

theorem Memory.cell_imageFrom (k : Nat) (P : List Word) (a : Nat) :
    (Memory.imageFrom k P).cell (k + a) = P.getD a 0#64 := by
  induction P generalizing k a with
  | nil => rfl
  | cons v P ih =>
    cases a with
    | zero =>
      by_cases hv : v = 0#64
      · simpa [Memory.imageFrom, hv] using Memory.cell_below (Memory.wfFrom_imageFrom (k + 1) P) (Nat.lt_succ_self k)
      · simp [Memory.imageFrom, hv, Memory.cell_cons]
    | succ a =>
      have h := ih (k + 1) a
      have e : k + 1 + a = k + (a + 1) := by omega
      rw [e] at h
      by_cases hv : v = 0#64
      · simpa [Memory.imageFrom, hv] using h
      · simpa [Memory.imageFrom, hv, Memory.cell_cons] using h

/-- The memory after reset is a copy of the program store (10_state.md R114). -/
theorem Memory.cell_image (P : List Word) (a : Nat) : (Memory.image P).cell a = P.getD a 0#64 := by
  simpa [Memory.image] using Memory.cell_imageFrom 0 P a

theorem Memory.wf_image (P : List Word) : (Memory.image P).wf = true := Memory.wfFrom_imageFrom 0 P

theorem Memory.within_image (P : List Word) : (Memory.image P).within P.length = true := by
  simpa [Memory.image] using Memory.within_imageFrom 0 P

/-- Reset memory has the canonical form. -/
theorem Memory.wf_reset : State.reset.mem.wf = true := rfl

end Sys2Proof.Machine
end

