-- ==== Sys2Proof/Laws/State.lean ====
section
/-! SUPPORT. One lemma per field per named update of the state, true by rfl. -/

namespace Sys2Proof.Machine

@[simp] theorem State.grow_cfg (s : State) (a : Nat) : (s.grow a).cfg = s.cfg := rfl
@[simp] theorem State.grow_prog (s : State) (a : Nat) : (s.grow a).prog = s.prog := rfl
@[simp] theorem State.grow_mem (s : State) (a : Nat) : (s.grow a).mem = s.mem := rfl
@[simp] theorem State.grow_ext (s : State) (a : Nat) : (s.grow a).ext = max s.ext (a + 1) := rfl
@[simp] theorem State.grow_pc (s : State) (a : Nat) : (s.grow a).pc = s.pc := rfl
@[simp] theorem State.grow_rb (s : State) (a : Nat) : (s.grow a).rb = s.rb := rfl
@[simp] theorem State.grow_inQ (s : State) (a : Nat) : (s.grow a).inQ = s.inQ := rfl
@[simp] theorem State.grow_outQ (s : State) (a : Nat) : (s.grow a).outQ = s.outQ := rfl
@[simp] theorem State.grow_rs (s : State) (a : Nat) : (s.grow a).rs = s.rs := rfl
@[simp] theorem State.grow_fc (s : State) (a : Nat) : (s.grow a).fc = s.fc := rfl

@[simp] theorem State.putCell_cfg (s : State) (a : Nat) (v : Word) : (s.putCell a v).cfg = s.cfg := rfl
@[simp] theorem State.putCell_prog (s : State) (a : Nat) (v : Word) : (s.putCell a v).prog = s.prog := rfl
@[simp] theorem State.putCell_mem (s : State) (a : Nat) (v : Word) : (s.putCell a v).mem = s.mem.store a v := rfl
@[simp] theorem State.putCell_ext (s : State) (a : Nat) (v : Word) : (s.putCell a v).ext = s.ext := rfl
@[simp] theorem State.putCell_pc (s : State) (a : Nat) (v : Word) : (s.putCell a v).pc = s.pc := rfl
@[simp] theorem State.putCell_rb (s : State) (a : Nat) (v : Word) : (s.putCell a v).rb = s.rb := rfl
@[simp] theorem State.putCell_inQ (s : State) (a : Nat) (v : Word) : (s.putCell a v).inQ = s.inQ := rfl
@[simp] theorem State.putCell_outQ (s : State) (a : Nat) (v : Word) : (s.putCell a v).outQ = s.outQ := rfl
@[simp] theorem State.putCell_rs (s : State) (a : Nat) (v : Word) : (s.putCell a v).rs = s.rs := rfl
@[simp] theorem State.putCell_fc (s : State) (a : Nat) (v : Word) : (s.putCell a v).fc = s.fc := rfl

@[simp] theorem State.retire_cfg (s : State) (npc : Nat) : (s.retire npc).cfg = s.cfg := rfl
@[simp] theorem State.retire_prog (s : State) (npc : Nat) : (s.retire npc).prog = s.prog := rfl
@[simp] theorem State.retire_mem (s : State) (npc : Nat) : (s.retire npc).mem = s.mem := rfl
@[simp] theorem State.retire_ext (s : State) (npc : Nat) : (s.retire npc).ext = s.ext := rfl
@[simp] theorem State.retire_pc (s : State) (npc : Nat) : (s.retire npc).pc = npc := rfl
@[simp] theorem State.retire_rb (s : State) (npc : Nat) : (s.retire npc).rb = s.rb := rfl
@[simp] theorem State.retire_inQ (s : State) (npc : Nat) : (s.retire npc).inQ = s.inQ := rfl
@[simp] theorem State.retire_outQ (s : State) (npc : Nat) : (s.retire npc).outQ = s.outQ := rfl
@[simp] theorem State.retire_rs (s : State) (npc : Nat) : (s.retire npc).rs = s.rs := rfl
@[simp] theorem State.retire_fc (s : State) (npc : Nat) : (s.retire npc).fc = s.fc := rfl

@[simp] theorem State.suspend_cfg (s : State) : (s.suspend).cfg = s.cfg := rfl
@[simp] theorem State.suspend_prog (s : State) : (s.suspend).prog = s.prog := rfl
@[simp] theorem State.suspend_mem (s : State) : (s.suspend).mem = s.mem := rfl
@[simp] theorem State.suspend_ext (s : State) : (s.suspend).ext = s.ext := rfl
@[simp] theorem State.suspend_pc (s : State) : (s.suspend).pc = s.pc := rfl
@[simp] theorem State.suspend_rb (s : State) : (s.suspend).rb = s.rb := rfl
@[simp] theorem State.suspend_inQ (s : State) : (s.suspend).inQ = s.inQ := rfl
@[simp] theorem State.suspend_outQ (s : State) : (s.suspend).outQ = s.outQ := rfl
@[simp] theorem State.suspend_rs (s : State) : (s.suspend).rs = .awaitingInput := rfl
@[simp] theorem State.suspend_fc (s : State) : (s.suspend).fc = s.fc := rfl

@[simp] theorem State.halt_cfg (s : State) : (s.halt).cfg = s.cfg := rfl
@[simp] theorem State.halt_prog (s : State) : (s.halt).prog = s.prog := rfl
@[simp] theorem State.halt_mem (s : State) : (s.halt).mem = s.mem := rfl
@[simp] theorem State.halt_ext (s : State) : (s.halt).ext = s.ext := rfl
@[simp] theorem State.halt_pc (s : State) : (s.halt).pc = 0 := rfl
@[simp] theorem State.halt_rb (s : State) : (s.halt).rb = s.rb := rfl
@[simp] theorem State.halt_inQ (s : State) : (s.halt).inQ = s.inQ := rfl
@[simp] theorem State.halt_outQ (s : State) : (s.halt).outQ = s.outQ := rfl
@[simp] theorem State.halt_rs (s : State) : (s.halt).rs = .halted := rfl
@[simp] theorem State.halt_fc (s : State) : (s.halt).fc = s.fc := rfl

@[simp] theorem State.takeFault_cfg (s : State) (c : Cause) : (s.takeFault c).cfg = s.cfg := rfl
@[simp] theorem State.takeFault_prog (s : State) (c : Cause) : (s.takeFault c).prog = s.prog := rfl
@[simp] theorem State.takeFault_mem (s : State) (c : Cause) : (s.takeFault c).mem = s.mem := rfl
@[simp] theorem State.takeFault_ext (s : State) (c : Cause) : (s.takeFault c).ext = s.ext := rfl
@[simp] theorem State.takeFault_pc (s : State) (c : Cause) : (s.takeFault c).pc = s.pc := rfl
@[simp] theorem State.takeFault_rb (s : State) (c : Cause) : (s.takeFault c).rb = s.rb := rfl
@[simp] theorem State.takeFault_inQ (s : State) (c : Cause) : (s.takeFault c).inQ = s.inQ := rfl
@[simp] theorem State.takeFault_outQ (s : State) (c : Cause) : (s.takeFault c).outQ = s.outQ := rfl
@[simp] theorem State.takeFault_rs (s : State) (c : Cause) : (s.takeFault c).rs = .faulted := rfl
@[simp] theorem State.takeFault_fc (s : State) (c : Cause) : (s.takeFault c).fc = some c := rfl

@[simp] theorem State.enqueueOut_cfg (s : State) (v : Word) : (s.enqueueOut v).cfg = s.cfg := rfl
@[simp] theorem State.enqueueOut_prog (s : State) (v : Word) : (s.enqueueOut v).prog = s.prog := rfl
@[simp] theorem State.enqueueOut_mem (s : State) (v : Word) : (s.enqueueOut v).mem = s.mem := rfl
@[simp] theorem State.enqueueOut_ext (s : State) (v : Word) : (s.enqueueOut v).ext = s.ext := rfl
@[simp] theorem State.enqueueOut_pc (s : State) (v : Word) : (s.enqueueOut v).pc = s.pc := rfl
@[simp] theorem State.enqueueOut_rb (s : State) (v : Word) : (s.enqueueOut v).rb = s.rb := rfl
@[simp] theorem State.enqueueOut_inQ (s : State) (v : Word) : (s.enqueueOut v).inQ = s.inQ := rfl
@[simp] theorem State.enqueueOut_outQ (s : State) (v : Word) : (s.enqueueOut v).outQ = s.outQ ++ [v] := rfl
@[simp] theorem State.enqueueOut_rs (s : State) (v : Word) : (s.enqueueOut v).rs = s.rs := rfl
@[simp] theorem State.enqueueOut_fc (s : State) (v : Word) : (s.enqueueOut v).fc = s.fc := rfl

@[simp] theorem State.dequeueIn_cfg (s : State) : (s.dequeueIn).cfg = s.cfg := rfl
@[simp] theorem State.dequeueIn_prog (s : State) : (s.dequeueIn).prog = s.prog := rfl
@[simp] theorem State.dequeueIn_mem (s : State) : (s.dequeueIn).mem = s.mem := rfl
@[simp] theorem State.dequeueIn_ext (s : State) : (s.dequeueIn).ext = s.ext := rfl
@[simp] theorem State.dequeueIn_pc (s : State) : (s.dequeueIn).pc = s.pc := rfl
@[simp] theorem State.dequeueIn_rb (s : State) : (s.dequeueIn).rb = s.rb := rfl
@[simp] theorem State.dequeueIn_inQ (s : State) : (s.dequeueIn).inQ = s.inQ.tail := rfl
@[simp] theorem State.dequeueIn_outQ (s : State) : (s.dequeueIn).outQ = s.outQ := rfl
@[simp] theorem State.dequeueIn_rs (s : State) : (s.dequeueIn).rs = s.rs := rfl
@[simp] theorem State.dequeueIn_fc (s : State) : (s.dequeueIn).fc = s.fc := rfl

@[simp] theorem State.setBase_cfg (s : State) (v : Word) : (s.setBase v).cfg = s.cfg := rfl
@[simp] theorem State.setBase_prog (s : State) (v : Word) : (s.setBase v).prog = s.prog := rfl
@[simp] theorem State.setBase_mem (s : State) (v : Word) : (s.setBase v).mem = s.mem := rfl
@[simp] theorem State.setBase_ext (s : State) (v : Word) : (s.setBase v).ext = s.ext := rfl
@[simp] theorem State.setBase_pc (s : State) (v : Word) : (s.setBase v).pc = s.pc := rfl
@[simp] theorem State.setBase_rb (s : State) (v : Word) : (s.setBase v).rb = v := rfl
@[simp] theorem State.setBase_inQ (s : State) (v : Word) : (s.setBase v).inQ = s.inQ := rfl
@[simp] theorem State.setBase_outQ (s : State) (v : Word) : (s.setBase v).outQ = s.outQ := rfl
@[simp] theorem State.setBase_rs (s : State) (v : Word) : (s.setBase v).rs = s.rs := rfl
@[simp] theorem State.setBase_fc (s : State) (v : Word) : (s.setBase v).fc = s.fc := rfl

theorem State.grow_within_ext (s : State) (a : Nat) (h : a < s.ext) : s.grow a = s := by
  cases s
  simp only [State.grow, State.mk.injEq, true_and, and_true] at h ⊢
  exact max_eq_left h

theorem State.grow_grow (s : State) (a b : Nat) :
    (s.grow a).grow b = { s with ext := max s.ext (max (a + 1) (b + 1)) } := by
  simp [State.grow, max_assoc]

end Sys2Proof.Machine
end

