-- ==== Sys2Proof/Laws/Ops.lean ====
section
/-! SUPPORT. What the shared operations can do: sequencing of attempts, the address checks, and the two access
primitives. -/

namespace Sys2Proof.Machine

@[simp] theorem Attempt.bind_ok {α β : Type} (v : α) (s : State) (k : α → State → Attempt β) :
    (Attempt.ok v s).bind k = k v s := rfl

@[simp] theorem Attempt.bind_raised {α β : Type} (c : Cause) (s : State) (k : α → State → Attempt β) :
    (Attempt.raised c s : Attempt α).bind k = .raised c s := rfl

@[simp] theorem Attempt.finish_ok (v : Unit) (s : State) : (Attempt.ok v s).finish = .next s := rfl

@[simp] theorem Attempt.finish_raised (c : Cause) (s : State) :
    (Attempt.raised c s : Attempt Unit).finish = .next (s.takeFault c) := rfl

/-- Every attempt ends in a next state (00_scope.md R13). -/
theorem Attempt.finish_next (x : Attempt Unit) : ∃ t, x.finish = .next t := by
  cases x with
  | ok v s => exact ⟨s, rfl⟩
  | raised c s => exact ⟨s.takeFault c, rfl⟩

/-- A sequence goes on exactly when both parts do. -/
theorem Attempt.bind_eq_ok {α β : Type} {x : Attempt α} {k : α → State → Attempt β} {w : β} {t : State} :
    x.bind k = .ok w t ↔ ∃ v s, x = .ok v s ∧ k v s = .ok w t := by
  cases x with
  | ok v s => simp
  | raised c s => simp

/-- A sequence raises when its first part does, or its second after it. -/
theorem Attempt.bind_eq_raised {α β : Type} {x : Attempt α} {k : α → State → Attempt β} {c : Cause} {t : State} :
    x.bind k = .raised c t ↔ x = .raised c t ∨ ∃ v s, x = .ok v s ∧ k v s = .raised c t := by
  cases x with
  | ok v s => simp
  | raised c s => simp

theorem State.addressFault_eq_none {s : State} {a : Int} :
    s.addressFault a = none ↔ 0 ≤ a ∧ a < s.cfg.memCapacity := by
  unfold State.addressFault
  split
  · simp; omega
  · split <;> simp <;> omega

theorem State.addressFault_neg {s : State} {a : Int} (h : a < 0) :
    s.addressFault a = some .negativeAddress := by
  simp [State.addressFault, h]

theorem State.addressFault_high {s : State} {a : Int} (h0 : 0 ≤ a) (h : (s.cfg.memCapacity : Int) ≤ a) :
    s.addressFault a = some .capacityExceeded := by
  simp [State.addressFault, h, not_lt.mpr h0]

theorem State.addressFault_mem {s : State} {a : Int} {c : Cause} (h : s.addressFault a = some c) :
    c = .negativeAddress ∨ c = .capacityExceeded := by
  unfold State.addressFault at h
  split at h
  · simp_all
  · split at h <;> simp_all

/-- The address checks depend on the configuration alone. -/
theorem State.addressFault_congr {s t : State} (h : s.cfg = t.cfg) (a : Int) :
    s.addressFault a = t.addressFault a := by
  simp [State.addressFault, h]

@[simp] theorem State.addressFault_grow (s : State) (b : Nat) (a : Int) :
    (s.grow b).addressFault a = s.addressFault a := rfl

@[simp] theorem State.addressFault_putCell (s : State) (b : Nat) (v : Word) (a : Int) :
    (s.putCell b v).addressFault a = s.addressFault a := rfl

theorem memRead_ok {a : Int} {s : State} (h : s.addressFault a = none) :
    memRead a s = .ok (s.mem.cell a.toNat) (s.grow a.toNat) := by
  simp [memRead, h]

theorem memRead_raised {a : Int} {s : State} {c : Cause} (h : s.addressFault a = some c) :
    memRead a s = .raised c s := by
  simp [memRead, h]

/-- Everything a `MemRead` that goes on has done. -/
theorem memRead_eq_ok {a : Int} {s t : State} {v : Word} :
    memRead a s = .ok v t ↔ s.addressFault a = none ∧ v = s.mem.cell a.toNat ∧ t = s.grow a.toNat := by
  cases h : s.addressFault a <;> simp [memRead, h, eq_comm]

theorem memRead_eq_raised {a : Int} {s t : State} {c : Cause} :
    memRead a s = .raised c t ↔ s.addressFault a = some c ∧ t = s := by
  cases h : s.addressFault a <;> simp [memRead, h, eq_comm]

theorem memWrite_ok {a : Int} {v : Word} {s : State} (h : s.addressFault a = none) :
    memWrite a v s = .ok () ((s.grow a.toNat).putCell a.toNat v) := by
  simp [memWrite, h]

theorem memWrite_raised {a : Int} {v : Word} {s : State} {c : Cause} (h : s.addressFault a = some c) :
    memWrite a v s = .raised c s := by
  simp [memWrite, h]

/-- Everything a `MemWrite` that goes on has done. -/
theorem memWrite_eq_ok {a : Int} {v : Word} {s t : State} :
    memWrite a v s = .ok () t ↔ s.addressFault a = none ∧ t = (s.grow a.toNat).putCell a.toNat v := by
  cases h : s.addressFault a <;> simp [memWrite, h, eq_comm]

theorem memWrite_eq_raised {a : Int} {v : Word} {s t : State} {c : Cause} :
    memWrite a v s = .raised c t ↔ s.addressFault a = some c ∧ t = s := by
  cases h : s.addressFault a <;> simp [memWrite, h, eq_comm]

/-- A memory access keeps the canonical form of memory. -/
theorem memWrite_wf {a : Int} {v : Word} {s t : State} (h : memWrite a v s = .ok () t) (hw : s.mem.wf = true) :
    t.mem.wf = true := by
  obtain ⟨-, rfl⟩ := memWrite_eq_ok.mp h
  simpa using Memory.wf_store hw a.toNat v

theorem memRead_wf {a : Int} {v : Word} {s t : State} (h : memRead a s = .ok v t) (hw : s.mem.wf = true) :
    t.mem.wf = true := by
  obtain ⟨-, -, rfl⟩ := memRead_eq_ok.mp h
  simpa using hw

end Sys2Proof.Machine
end

