-- ==== Sys2Proof/Laws/Operands.lean ====
section
/-! SUPPORT. What reading an operand, computing a result and writing a destination can do, in the terms of Safety.lean. -/

namespace Sys2Proof.Machine

@[simp] theorem afterRead_cfg (o : Operand) (s : State) : (afterRead o s).cfg = s.cfg := by
  unfold afterRead; split <;> rfl

@[simp] theorem afterRead_prog (o : Operand) (s : State) : (afterRead o s).prog = s.prog := by
  unfold afterRead; split <;> rfl

@[simp] theorem afterRead_mem (o : Operand) (s : State) : (afterRead o s).mem = s.mem := by
  unfold afterRead; split <;> rfl

@[simp] theorem afterRead_pc (o : Operand) (s : State) : (afterRead o s).pc = s.pc := by
  unfold afterRead; split <;> rfl

@[simp] theorem afterRead_rb (o : Operand) (s : State) : (afterRead o s).rb = s.rb := by
  unfold afterRead; split <;> rfl

@[simp] theorem afterRead_inQ (o : Operand) (s : State) : (afterRead o s).inQ = s.inQ := by
  unfold afterRead; split <;> rfl

@[simp] theorem afterRead_outQ (o : Operand) (s : State) : (afterRead o s).outQ = s.outQ := by
  unfold afterRead; split <;> rfl

@[simp] theorem afterRead_rs (o : Operand) (s : State) : (afterRead o s).rs = s.rs := by
  unfold afterRead; split <;> rfl

@[simp] theorem afterRead_fc (o : Operand) (s : State) : (afterRead o s).fc = s.fc := by
  unfold afterRead; split <;> rfl

/-- Reading an operand changes the extent alone (20_memory.md R215). -/
theorem afterRead_eq (o : Operand) (s : State) : afterRead o s = { s with ext := (afterRead o s).ext } := by
  unfold afterRead; split <;> rfl

theorem le_afterRead_ext (o : Operand) (s : State) : s.ext ≤ (afterRead o s).ext := by
  unfold afterRead; split <;> simp

/-- The effective address depends on the relative base alone (40_engine.md R404). -/
theorem effAddr_congr {s t : State} (h : s.rb = t.rb) (o : Operand) : effAddr o s = effAddr o t := by
  simp [effAddr, h]

@[simp] theorem effAddr_afterRead (o d : Operand) (s : State) : effAddr d (afterRead o s) = effAddr d s :=
  effAddr_congr (by simp) d

@[simp] theorem effAddr_grow (a : Nat) (d : Operand) (s : State) : effAddr d (s.grow a) = effAddr d s := rfl

@[simp] theorem addressFault_afterRead (o : Operand) (a : Int) (s : State) :
    (afterRead o s).addressFault a = s.addressFault a :=
  State.addressFault_congr (by simp) a

@[simp] theorem operandFault_afterRead (o d : Operand) (s : State) :
    operandFault d (afterRead o s) = operandFault d s := by
  simp [operandFault]

@[simp] theorem operandValue_afterRead (o d : Operand) (s : State) :
    operandValue d (afterRead o s) = operandValue d s := by
  simp [operandValue]

theorem operandFault_mem {o : Operand} {s : State} {c : Cause} (h : operandFault o s = some c) :
    c = .negativeAddress ∨ c = .capacityExceeded := by
  unfold operandFault at h
  split at h
  · cases h
  · exact State.addressFault_mem h

/-- An operand that can be read gives its value, and only the extent grows (40_engine.md R403). -/
theorem readOp_ok {o : Operand} {s : State} (h : operandFault o s = none) :
    readOp o s = .ok (operandValue o s) (afterRead o s) := by
  unfold operandFault at h
  unfold readOp operandValue afterRead
  split <;> simp_all [memRead_ok]

/-- An operand that can not be read raises its fault and nothing grows (20_memory.md R210). -/
theorem readOp_raised {o : Operand} {s : State} {c : Cause} (h : operandFault o s = some c) :
    readOp o s = .raised c s := by
  unfold operandFault at h
  unfold readOp
  split <;> simp_all [memRead_raised]

/-- Everything a read of an operand can do. -/
theorem readOp_eq (o : Operand) (s : State) :
    readOp o s = match operandFault o s with
      | some c => .raised c s
      | none => .ok (operandValue o s) (afterRead o s) := by
  cases h : operandFault o s with
  | none => exact readOp_ok h
  | some c => exact readOp_raised h

/-- An operand with an effective address is no Immediate operand. -/
theorem isDest_of_effAddr {d : Operand} {s : State} {e : Int} (h : effAddr d s = some e) : d.isDest = true := by
  obtain ⟨m, p⟩ := d
  cases m <;> simp_all [effAddr, Operand.isDest]

/-- A destination has an effective address. -/
theorem effAddr_of_isDest {d : Operand} (s : State) (h : d.isDest = true) : ∃ e, effAddr d s = some e := by
  obtain ⟨m, p⟩ := d
  cases m <;> simp_all [effAddr, Operand.isDest]

theorem requireDest_ok {d : Operand} {s : State} (h : d.isDest = true) : requireDest d s = .ok () s := by
  simp [requireDest, h]

theorem requireDest_raised {d : Operand} {s : State} (h : d.isDest = false) :
    requireDest d s = .raised .illegalInstruction s := by
  simp [requireDest, h]

theorem writeOp_of_effAddr {d : Operand} {v : Word} {s : State} {e : Int} (h : effAddr d s = some e) :
    writeOp d v s = memWrite e v s := by
  simp [writeOp, h]

/-- A word is the word of its value. -/
theorem ofInt_eq_of_toInt {r : Word} {v : Int} (h : r.toInt = v) : Word.ofInt v = r := by
  subst h
  exact BitVec.ofInt_toInt

/-- The value of every word is in `i64` (00_scope.md R8). -/
theorem fits64_toInt (r : Word) : fits64 r.toInt := by
  have h1 := BitVec.le_toInt r
  have h2 := BitVec.toInt_lt (x := r)
  simp only [fits64]
  omega

/-- An integer of `i64` is the value of its word (00_scope.md R8). -/
theorem toInt_ofInt {v : Int} (h : fits64 v) : (Word.ofInt v).toInt = v := by
  simp only [fits64] at h
  exact BitVec.toInt_ofInt_eq_self (by decide) (by omega) (by omega)

theorem checked_of_toInt {r : Word} {v : Int} {s : State} (h : r.toInt = v) : checked v s = .ok r s := by
  have hf : fits64 v := h ▸ fits64_toInt r
  simp [checked, hf, ofInt_eq_of_toInt h]

theorem checked_overflow {v : Int} {s : State} (h : ¬ fits64 v) : checked v s = .raised .arithmeticOverflow s := by
  simp [checked, h]

/-- Everything a test of an exact result can do. -/
theorem checked_cases (v : Int) (s : State) :
    (∃ r : Word, r.toInt = v ∧ checked v s = .ok r s) ∨
    (¬ fits64 v ∧ checked v s = .raised .arithmeticOverflow s) := by
  by_cases h : fits64 v
  · exact .inl ⟨Word.ofInt v, toInt_ofInt h, checked_of_toInt (toInt_ofInt h)⟩
  · exact .inr ⟨h, checked_overflow h⟩

end Sys2Proof.Machine
end

