-- ==== Sys2Proof/Laws/Exec.lean ====
section
/-! SUPPORT. What each body can do, once: how a part of an instruction raises, and one inversion lemma for each
instruction shape. -/

namespace Sys2Proof.Machine

/-- `n` is an extent that accesses within the capacity can leave from `s` (20_memory.md R212). -/
abbrev GrownTo (s : State) (n : Nat) : Prop :=
  s.ext ≤ n ∧ (s.ext ≤ s.cfg.memCapacity → n ≤ s.cfg.memCapacity)

/-- `t` is `s` after a fault: only the run state, the cause and the extent differ (60_exceptions.md R801). -/
abbrev FaultOf (s t : State) : Prop :=
  ∃ c n, GrownTo s n ∧ t = { s with ext := n, rs := .faulted, fc := some c }

theorem grownTo_self (s : State) : GrownTo s s.ext := ⟨le_rfl, id⟩

theorem grownTo_trans {s t : State} {n : Nat} (hc : t.cfg = s.cfg) (h : GrownTo s t.ext) (h' : GrownTo t n) :
    GrownTo s n := by
  refine ⟨h.1.trans h'.1, fun hs => ?_⟩
  have h1 := h'.2
  rw [hc] at h1
  exact h1 (h.2 hs)

theorem grownTo_grow {s : State} {a : Int} (h : s.addressFault a = none) :
    GrownTo s (max s.ext (a.toNat + 1)) := by
  have := State.addressFault_eq_none.mp h
  constructor
  · exact le_max_left _ _
  · intro hs
    exact max_le hs (by omega)

theorem grownTo_afterRead {o : Operand} {s : State} (h : operandFault o s = none) :
    GrownTo s (afterRead o s).ext := by
  unfold operandFault at h
  unfold afterRead
  split
  · exact grownTo_self s
  · rename_i a ha
    rw [ha] at h
    exact grownTo_grow h

theorem faultOf_takeFault {s t : State} {c : Cause} (he : t = { s with ext := t.ext }) (hg : GrownTo s t.ext) :
    FaultOf s (t.takeFault c) := by
  refine ⟨c, t.ext, hg, ?_⟩
  rw [he]
  rfl

/-- A test of two values that answers a word or a fault and touches nothing. -/
abbrev PureAlu (alu : Word → Word → State → Attempt Word) : Prop :=
  ∀ x y s, (∃ r, alu x y s = .ok r s) ∨ ∃ c, alu x y s = .raised c s

theorem pureAlu_add : PureAlu aluAdd := fun x y s => by
  rcases checked_cases (x.toInt + y.toInt) s with ⟨r, -, h⟩ | ⟨-, h⟩
  · exact .inl ⟨r, h⟩
  · exact .inr ⟨_, h⟩

theorem pureAlu_mul : PureAlu aluMul := fun x y s => by
  rcases checked_cases (x.toInt * y.toInt) s with ⟨r, -, h⟩ | ⟨-, h⟩
  · exact .inl ⟨r, h⟩
  · exact .inr ⟨_, h⟩

theorem pureAlu_lt : PureAlu aluLt := fun _ _ _ => .inl ⟨_, rfl⟩

theorem pureAlu_eq : PureAlu aluEq := fun _ _ _ => .inl ⟨_, rfl⟩

/-- What ADD, MUL, LT and EQ can do: fault, or store one result and advance. -/
theorem threeOperand_next {alu : Word → Word → State → Attempt Word} (hp : PureAlu alu) {a b d : Operand}
    {s t : State} (h : (threeOperand alu a b d s).finish = .next t) :
    FaultOf s t ∨
    ∃ e r n, effAddr d s = some e ∧ s.addressFault e = none ∧ GrownTo s n ∧ e.toNat < n ∧
      t = { s with mem := s.mem.store e.toNat r, ext := n, pc := s.pc + 4 } := by
  unfold threeOperand at h
  cases hd : d.isDest with
  | false =>
    simp only [requireDest_raised hd, Attempt.bind_raised, Attempt.finish_raised] at h
    cases h
    exact .inl (faultOf_takeFault rfl (grownTo_self s))
  | true =>
    obtain ⟨e, he⟩ := effAddr_of_isDest s hd
    simp only [requireDest_ok hd, Attempt.bind_ok] at h
    cases ha : operandFault a s with
    | some c =>
      simp only [readOp_raised ha, Attempt.bind_raised, Attempt.finish_raised] at h
      cases h
      exact .inl (faultOf_takeFault rfl (grownTo_self s))
    | none =>
      have hga := grownTo_afterRead ha
      simp only [readOp_ok ha, Attempt.bind_ok] at h
      cases hb : operandFault b s with
      | some c =>
        rw [← operandFault_afterRead a] at hb
        simp only [readOp_raised hb, Attempt.bind_raised, Attempt.finish_raised] at h
        cases h
        exact .inl (faultOf_takeFault (afterRead_eq a s) hga)
      | none =>
        rw [← operandFault_afterRead a] at hb
        have hgb := grownTo_trans (afterRead_cfg a s) hga (grownTo_afterRead hb)
        have heq : afterRead b (afterRead a s) = { s with ext := (afterRead b (afterRead a s)).ext } := by
          rw [afterRead_eq b, afterRead_eq a s]
        simp only [readOp_ok hb, Attempt.bind_ok] at h
        rcases hp (operandValue a s) (operandValue b (afterRead a s)) (afterRead b (afterRead a s)) with
          ⟨r, hr⟩ | ⟨c, hr⟩
        · have he' : effAddr d (afterRead b (afterRead a s)) = some e := by simpa using he
          simp only [hr, Attempt.bind_ok, writeOp_of_effAddr he'] at h
          cases hw : s.addressFault e with
          | some c =>
            have hw' : (afterRead b (afterRead a s)).addressFault e = some c := by simpa using hw
            simp only [memWrite_raised hw', Attempt.bind_raised, Attempt.finish_raised] at h
            cases h
            exact .inl (faultOf_takeFault heq hgb)
          | none =>
            have hw' : (afterRead b (afterRead a s)).addressFault e = none := by simpa using hw
            simp only [memWrite_ok hw', Attempt.bind_ok, Attempt.finish_ok] at h
            cases h
            refine .inr ⟨e, r, max (afterRead b (afterRead a s)).ext (e.toNat + 1), he, hw,
              grownTo_trans (by simp) hgb (grownTo_grow hw'), by omega, ?_⟩
            rw [heq]
            rfl
        · simp only [hr, Attempt.bind_raised, Attempt.finish_raised] at h
          cases h
          exact .inl (faultOf_takeFault heq hgb)

/-- What IN can do: fault, suspend on an empty queue, or store the oldest input and advance. -/
theorem execIn_next {d : Operand} {s t : State} (h : execIn d s = .next t) :
    FaultOf s t ∨
    (s.inQ = [] ∧ t = { s with rs := .awaitingInput }) ∨
    ∃ e v n, effAddr d s = some e ∧ s.addressFault e = none ∧ GrownTo s n ∧ e.toNat < n ∧
      s.inQ = v :: t.inQ ∧
      t = { s with mem := s.mem.store e.toNat v, ext := n, inQ := t.inQ, pc := s.pc + 2 } := by
  unfold execIn at h
  cases hd : d.isDest with
  | false =>
    simp only [requireDest_raised hd, Attempt.bind_raised, Attempt.finish_raised] at h
    cases h
    exact .inl (faultOf_takeFault rfl (grownTo_self s))
  | true =>
    obtain ⟨e, he⟩ := effAddr_of_isDest s hd
    simp only [requireDest_ok hd, Attempt.bind_ok] at h
    cases hq : s.inQ with
    | nil =>
      simp only [hq, Attempt.finish_ok] at h
      cases h
      exact .inr (.inl ⟨rfl, by rw [← hq]; rfl⟩)
    | cons v q =>
      simp only [hq, writeOp_of_effAddr he] at h
      cases hw : s.addressFault e with
      | some c =>
        simp only [memWrite_raised hw, Attempt.bind_raised, Attempt.finish_raised] at h
        cases h
        exact .inl (faultOf_takeFault rfl (grownTo_self s))
      | none =>
        simp only [memWrite_ok hw, Attempt.bind_ok, Attempt.finish_ok] at h
        cases h
        exact .inr (.inr ⟨e, v, max s.ext (e.toNat + 1), he, hw, grownTo_grow hw, by omega, by simp [hq], rfl⟩)

/-- What OUT can do: fault, or append one value and advance. -/
theorem execOut_next {a : Operand} {s t : State} (h : execOut a s = .next t) :
    FaultOf s t ∨
    ∃ n, GrownTo s n ∧ t = { s with ext := n, outQ := s.outQ ++ [operandValue a s], pc := s.pc + 2 } := by
  unfold execOut at h
  cases ha : operandFault a s with
  | some c =>
    simp only [readOp_raised ha, Attempt.bind_raised, Attempt.finish_raised] at h
    cases h
    exact .inl (faultOf_takeFault rfl (grownTo_self s))
  | none =>
    simp only [readOp_ok ha, Attempt.bind_ok, Attempt.finish_ok] at h
    cases h
    refine .inr ⟨(afterRead a s).ext, grownTo_afterRead ha, ?_⟩
    rw [afterRead_eq a s]
    rfl

/-- What SREL can do: fault, or set the relative base and advance. -/
theorem execSrel_next {a : Operand} {s t : State} (h : execSrel a s = .next t) :
    FaultOf s t ∨ ∃ n r, GrownTo s n ∧ t = { s with ext := n, rb := r, pc := s.pc + 2 } := by
  unfold execSrel at h
  cases ha : operandFault a s with
  | some c =>
    simp only [readOp_raised ha, Attempt.bind_raised, Attempt.finish_raised] at h
    cases h
    exact .inl (faultOf_takeFault rfl (grownTo_self s))
  | none =>
    have hg := grownTo_afterRead ha
    simp only [readOp_ok ha, Attempt.bind_ok] at h
    rcases pureAlu_add (afterRead a s).rb (operandValue a s) (afterRead a s) with ⟨r, hr⟩ | ⟨c, hr⟩
    · simp only [hr, Attempt.bind_ok, Attempt.finish_ok] at h
      cases h
      refine .inr ⟨(afterRead a s).ext, r, hg, ?_⟩
      rw [afterRead_eq a s]
      rfl
    · simp only [hr, Attempt.bind_raised, Attempt.finish_raised] at h
      cases h
      exact .inl (faultOf_takeFault (afterRead_eq a s) hg)

theorem aluNz_eq_true {a : Word} : aluNz a = true ↔ a.toInt ≠ 0 := by simp [aluNz]

theorem aluNz_eq_false {a : Word} : aluNz a = false ↔ a.toInt = 0 := by simp [aluNz]

/-- What reading both operands of a jump and then going one of two ways can do. -/
theorem jump_next {a b : Operand} {taken : Word → Bool} {s t : State}
    (h : ((readOp a s).bind fun x s1 => (readOp b s1).bind fun y s2 =>
      if taken x then jumpTo y s2 else .ok () (s2.retire (s2.pc + 3))).finish = .next t) :
    FaultOf s t ∨
    (∃ n, GrownTo s n ∧ taken (operandValue a s) = false ∧ t = { s with ext := n, pc := s.pc + 3 }) ∨
    ∃ n, GrownTo s n ∧ taken (operandValue a s) = true ∧ 0 ≤ (operandValue b s).toInt ∧
      t = { s with ext := n, pc := (operandValue b s).toInt.toNat } := by
  cases ha : operandFault a s with
  | some c =>
    simp only [readOp_raised ha, Attempt.bind_raised, Attempt.finish_raised] at h
    cases h
    exact .inl (faultOf_takeFault rfl (grownTo_self s))
  | none =>
    have hga := grownTo_afterRead ha
    simp only [readOp_ok ha, Attempt.bind_ok] at h
    cases hb : operandFault b s with
    | some c =>
      rw [← operandFault_afterRead a] at hb
      simp only [readOp_raised hb, Attempt.bind_raised, Attempt.finish_raised] at h
      cases h
      exact .inl (faultOf_takeFault (afterRead_eq a s) hga)
    | none =>
      rw [← operandFault_afterRead a] at hb
      have hgb := grownTo_trans (afterRead_cfg a s) hga (grownTo_afterRead hb)
      have heq : afterRead b (afterRead a s) = { s with ext := (afterRead b (afterRead a s)).ext } := by
        rw [afterRead_eq b, afterRead_eq a s]
      simp only [readOp_ok hb, Attempt.bind_ok, operandValue_afterRead] at h
      cases hz : taken (operandValue a s) with
      | false =>
        simp only [hz, Bool.false_eq_true, if_false, Attempt.finish_ok] at h
        cases h
        refine .inr (.inl ⟨_, hgb, rfl, ?_⟩)
        rw [heq]
        rfl
      | true =>
        simp only [hz, if_true, jumpTo] at h
        by_cases hn : (operandValue b s).toInt < 0
        · simp only [hn, if_true, Attempt.finish_raised] at h
          cases h
          exact .inl (faultOf_takeFault heq hgb)
        · simp only [hn, if_false, Attempt.finish_ok] at h
          cases h
          refine .inr (.inr ⟨_, hgb, rfl, by omega, ?_⟩)
          rw [heq]
          rfl

/-- What JT can do. -/
theorem execJt_next {a b : Operand} {s t : State} (h : execJt a b s = .next t) :
    FaultOf s t ∨
    (∃ n, GrownTo s n ∧ (operandValue a s).toInt = 0 ∧ t = { s with ext := n, pc := s.pc + 3 }) ∨
    ∃ n, GrownTo s n ∧ (operandValue a s).toInt ≠ 0 ∧ 0 ≤ (operandValue b s).toInt ∧
      t = { s with ext := n, pc := (operandValue b s).toInt.toNat } := by
  simpa only [aluNz_eq_true, aluNz_eq_false] using jump_next h

/-- What JF can do. -/
theorem execJf_next {a b : Operand} {s t : State} (h : execJf a b s = .next t) :
    FaultOf s t ∨
    (∃ n, GrownTo s n ∧ (operandValue a s).toInt ≠ 0 ∧ t = { s with ext := n, pc := s.pc + 3 }) ∨
    ∃ n, GrownTo s n ∧ (operandValue a s).toInt = 0 ∧ 0 ≤ (operandValue b s).toInt ∧
      t = { s with ext := n, pc := (operandValue b s).toInt.toNat } := by
  have h' := jump_next (taken := fun x => !aluNz x) (a := a) (b := b) (s := s) (t := t) (by
    rw [← h]
    unfold execJf
    congr 3
    funext x s1
    congr 1
    funext y s2
    cases aluNz x <;> rfl)
  simpa only [Bool.not_eq_true', Bool.not_eq_false', aluNz_eq_true, aluNz_eq_false] using h'

/-- What HALT does. -/
theorem execHalt_eq (s : State) : execHalt s = .next { s with rs := .halted, pc := 0 } := rfl

/-- Every body answers a next state: no instruction stops the machine. -/
theorem exec_next (i : Instr) (s : State) : ∃ t, exec i s = .next t := by
  cases i with
  | halt => exact ⟨_, execHalt_eq s⟩
  | _ => exact Attempt.finish_next _

end Sys2Proof.Machine
end

