-- ==== Sys2Proof/Laws/Fetch.lean ====
section
/-! SUPPORT. What the fetch of an instruction can do, and what a step can do. -/

namespace Sys2Proof.Machine

/-- Fetching parameters below the capacity gives their cells and grows the extent over them. -/
theorem fetchParams_ok (n p : Nat) (s : State) (h : p + n ≤ s.cfg.memCapacity) (hp : p ≤ s.ext) :
    fetchParams n p s = .ok (s.mem.cellsFrom p n) { s with ext := max s.ext (p + n) } := by
  induction n generalizing p s with
  | zero => simp [fetchParams, Memory.cellsFrom, hp]
  | succ n ih =>
    have hr : s.addressFault (p : Int) = none := State.addressFault_eq_none.mpr (by omega)
    have h1 := ih (p + 1) (s.grow p) (by simp; omega) (by simp)
    push_cast at h1
    simp only [fetchParams, memRead_ok hr, Attempt.bind_ok, Int.toNat_natCast, h1]
    congr 1
    · simp [Memory.cellsFrom, List.range_succ_eq_map, Function.comp_def, Nat.add_assoc, Nat.add_comm 1]
    · simp only [State.grow, State.mk.injEq, true_and, and_true]
      omega

/-- Fetching parameters across the capacity faults with the extent grown to it. -/
theorem fetchParams_raised (n p : Nat) (s : State) (h : s.cfg.memCapacity < p + n) (hp : p ≤ s.cfg.memCapacity)
    (he : p ≤ s.ext) :
    fetchParams n p s = .raised .capacityExceeded { s with ext := max s.ext s.cfg.memCapacity } := by
  induction n generalizing p s with
  | zero => omega
  | succ n ih =>
    by_cases hc : p = s.cfg.memCapacity
    · have hr := State.addressFault_high (s := s) (a := p) (by omega) (by omega)
      have : max s.ext s.cfg.memCapacity = s.ext := by omega
      simp [fetchParams, memRead_raised hr, this]
    · have hr : s.addressFault (p : Int) = none := State.addressFault_eq_none.mpr (by omega)
      have h1 := ih (p + 1) (s.grow p) (by simp; omega) (by simp; omega) (by simp)
      push_cast at h1
      simp only [fetchParams, memRead_ok hr, Attempt.bind_ok, Int.toNat_natCast, h1, Attempt.bind_raised]
      simp only [State.grow, Attempt.raised.injEq, State.mk.injEq, true_and, and_true]
      omega

theorem cellsFrom_succ (m : Memory) (a n : Nat) :
    m.cellsFrom a (n + 1) = m.cell a :: m.cellsFrom (a + 1) n := by
  simp [Memory.cellsFrom, List.range_succ_eq_map, Function.comp_def, Nat.add_assoc, Nat.add_comm 1]

@[simp] theorem length_cellsFrom (m : Memory) (a n : Nat) : (m.cellsFrom a n).length = n := by
  simp [Memory.cellsFrom]

theorem opcode_instr (h : Header) (p : List Word) : (h.instr p).opcode = h.op := by
  obtain ⟨op, m1, m2, m3⟩ := h
  cases op <;> rfl

/-- An illegal word at `pc` faults before its parameters are fetched (30_encoding.md R310). -/
theorem fetchInstr_illegal {s : State} {e : DecodeError} (hp : s.pc < s.cfg.memCapacity)
    (hd : decodeWord (s.mem.cell s.pc) = .error e) :
    fetchInstr s = .raised .illegalInstruction (s.grow s.pc) := by
  have hr : s.addressFault (s.pc : Int) = none := State.addressFault_eq_none.mpr (by omega)
  simp [fetchInstr, memRead_ok hr, hd, fetchRest]

/-- A word at `pc` beyond the capacity faults and grows nothing (40_engine.md R401). -/
theorem fetchInstr_beyond {s : State} (hp : s.cfg.memCapacity ≤ s.pc) :
    fetchInstr s = .raised .capacityExceeded s := by
  have hr := State.addressFault_high (s := s) (a := s.pc) (by omega) (by omega)
  simp [fetchInstr, memRead_raised hr]

/-- A legal word at `pc` with its parameters below the capacity (40_engine.md R402). -/
theorem fetchInstr_legal {s : State} {h : Header} (hd : decodeWord (s.mem.cell s.pc) = .ok h)
    (hc : s.pc + 1 + h.op.nops ≤ s.cfg.memCapacity) :
    fetchInstr s = .ok (h.instr (s.mem.cellsFrom (s.pc + 1) h.op.nops))
      { s with ext := max s.ext (s.pc + 1 + h.op.nops) } := by
  have hr : s.addressFault (s.pc : Int) = none := State.addressFault_eq_none.mpr (by omega)
  have h1 := fetchParams_ok h.op.nops (s.pc + 1) (s.grow s.pc) (by simpa using hc) (by simp)
  push_cast at h1
  simp only [fetchInstr, memRead_ok hr, Attempt.bind_ok, Int.toNat_natCast, hd, fetchRest, State.grow_pc, h1,
    State.grow_mem, State.grow_ext]
  simp only [State.grow, Attempt.ok.injEq, State.mk.injEq, true_and, and_true]
  omega

/-- A legal word at `pc` with a parameter at or beyond the capacity (40_engine.md R402). -/
theorem fetchInstr_legal_beyond {s : State} {h : Header} (hp : s.pc < s.cfg.memCapacity)
    (hd : decodeWord (s.mem.cell s.pc) = .ok h) (hc : s.cfg.memCapacity < s.pc + 1 + h.op.nops) :
    fetchInstr s = .raised .capacityExceeded { s with ext := max s.ext s.cfg.memCapacity } := by
  have hr : s.addressFault (s.pc : Int) = none := State.addressFault_eq_none.mpr (by omega)
  have h1 := fetchParams_raised h.op.nops (s.pc + 1) (s.grow s.pc) (by simpa using hc) (by simp; omega) (by simp)
  push_cast at h1
  simp only [fetchInstr, memRead_ok hr, Attempt.bind_ok, Int.toNat_natCast, hd, fetchRest, State.grow_pc, h1,
    State.grow_cfg, State.grow_ext, Attempt.bind_raised]
  simp only [State.grow, Attempt.raised.injEq, State.mk.injEq, true_and, and_true]
  omega

/-- Everything a fetch that goes on has done. -/
theorem fetchInstr_eq_ok {s s1 : State} {i : Instr} (h : fetchInstr s = .ok i s1) :
    ∃ hd, decodeWord (s.mem.cell s.pc) = .ok hd ∧ i = hd.instr (s.mem.cellsFrom (s.pc + 1) hd.op.nops) ∧
      i.opcode = hd.op ∧ s.pc + i.length ≤ s.cfg.memCapacity ∧
      s1 = { s with ext := max s.ext (s.pc + i.length) } := by
  by_cases hp : s.cfg.memCapacity ≤ s.pc
  · rw [fetchInstr_beyond hp] at h
    cases h
  · cases hd : decodeWord (s.mem.cell s.pc) with
    | error e =>
      rw [fetchInstr_illegal (by omega) hd] at h
      cases h
    | ok hdr =>
      by_cases hc : s.cfg.memCapacity < s.pc + 1 + hdr.op.nops
      · rw [fetchInstr_legal_beyond (by omega) hd hc] at h
        cases h
      · rw [fetchInstr_legal hd (by omega)] at h
        cases h
        refine ⟨hdr, rfl, rfl, opcode_instr _ _, ?_, ?_⟩
        · simp only [Instr.length, opcode_instr]
          omega
        · simp only [Instr.length, opcode_instr, Nat.add_assoc]

/-- Everything a fetch that raises has done: only the extent may have grown. -/
theorem fetchInstr_eq_raised {s s1 : State} {c : Cause} (h : fetchInstr s = .raised c s1) :
    (c = .illegalInstruction ∨ c = .capacityExceeded) ∧ GrownTo s s1.ext ∧ s1 = { s with ext := s1.ext } := by
  by_cases hp : s.cfg.memCapacity ≤ s.pc
  · rw [fetchInstr_beyond hp] at h
    cases h
    exact ⟨.inr rfl, grownTo_self s, rfl⟩
  · have hr : s.addressFault (s.pc : Int) = none := State.addressFault_eq_none.mpr (by omega)
    cases hd : decodeWord (s.mem.cell s.pc) with
    | error e =>
      rw [fetchInstr_illegal (by omega) hd] at h
      cases h
      exact ⟨.inl rfl, grownTo_grow hr, rfl⟩
    | ok hdr =>
      by_cases hc : s.cfg.memCapacity < s.pc + 1 + hdr.op.nops
      · rw [fetchInstr_legal_beyond (by omega) hd hc] at h
        cases h
        refine ⟨.inr rfl, ⟨le_max_left _ _, fun hs => ?_⟩, rfl⟩
        exact max_le hs le_rfl
      · rw [fetchInstr_legal hd (by omega)] at h
        cases h

/-- Everything a step of a Running engine can do: a fault of the fetch, or the body of the fetched instruction. -/
theorem step_running {s t : State} (hr : s.rs = .running) (h : step s = .next t) :
    (FaultOf s t ∧ ∃ c s1, fetchInstr s = .raised c s1 ∧ t = s1.takeFault c) ∨
    ∃ i s1, fetchInstr s = .ok i s1 ∧ exec i s1 = .next t := by
  unfold step at h
  rw [if_pos hr] at h
  cases hf : fetchInstr s with
  | ok i s1 =>
    rw [hf] at h
    exact .inr ⟨i, s1, rfl, h⟩
  | raised c s1 =>
    rw [hf] at h
    cases h
    obtain ⟨-, hg, he⟩ := fetchInstr_eq_raised hf
    exact .inl ⟨faultOf_takeFault he hg, c, s1, rfl, rfl⟩

/-- Every step answers a next state. -/
theorem step_next (s : State) : ∃ t, step s = .next t := by
  unfold step
  split
  · cases hf : fetchInstr s with
    | ok i s1 => exact exec_next i s1
    | raised c s1 => exact ⟨_, rfl⟩
  · exact ⟨s, rfl⟩

end Sys2Proof.Machine
end

