-- ==== Sys2Proof/Laws/PerInstr.lean ====
section
/-! SUPPORT. Statements for all instructions, one lemma per constructor. `EncodedLength`: an instruction is encoded in as
many cells as its opcode fixes (30_encoding.md R301, R302). -/

namespace Sys2Proof.Laws.EncodedLength

/-- The encoding has the length of the instruction. -/
def Statement (i : Instr) : Prop := (encode i).length = i.length

theorem add (a b dst : Operand) : Statement (.add a b dst) := rfl
theorem mul (a b dst : Operand) : Statement (.mul a b dst) := rfl
theorem inp (dst : Operand) : Statement (.inp dst) := rfl
theorem out (a : Operand) : Statement (.out a) := rfl
theorem jt (a target : Operand) : Statement (.jt a target) := rfl
theorem jf (a target : Operand) : Statement (.jf a target) := rfl
theorem lt (a b dst : Operand) : Statement (.lt a b dst) := rfl
theorem eq (a b dst : Operand) : Statement (.eq a b dst) := rfl
theorem srel (a : Operand) : Statement (.srel a) := rfl
theorem halt : Statement .halt := rfl

end Sys2Proof.Laws.EncodedLength
end

