-- ==== Sys2Proof/Tests/Slice0.lean ====
section
/-! SUPPORT. Tests on single words, single steps and single commands, and for each statement with hypotheses a witness that
meets them. Expected values come from 30_encoding.md and 95_test_vectors.md, whose vector is named beside each test. -/

namespace Sys2Proof.Tests

open Sys2Proof.Machine

/-! ### Helpers -/

def w (v : Int) : Word := Word.ofInt v
def pos (v : Int) : Operand := ⟨.position, w v⟩
def imm (v : Int) : Operand := ⟨.immediate, w v⟩
def rel (v : Int) : Operand := ⟨.relative, w v⟩
def max64 : Int := 9223372036854775807
def min64 : Int := -9223372036854775808

/-- A Running engine of capacity `cap` with the cells `P` from address 0 on. -/
def booted (cap : Nat) (P : List Int) : State :=
  { State.powerOn ⟨cap⟩ with
    prog := P.map w, mem := Memory.image (P.map w), ext := P.length, rs := .running }

/-- The state of an outcome that is a next state. -/
def after : Host.Outcome State Fault Refusal → Option State
  | .next s => some s
  | .fault _ => none
  | .refused _ => none

/-- A capacity of 12, the cells 7, 0, -5, and the relative base 1. -/
def st : State := { booted 12 [7, 0, -5] with rb := 1#64 }

/-- The cells of the S5 vector: 3 at address 9, 4 at address 10, relative base 5. -/
def aliased : State := { booted 100 [99, 0, 0, 0, 0, 0, 0, 0, 0, 3, 4, 0] with rb := 5#64 }

/-! ### Constants and well-formedness -/

theorem test_largest_capacity : Config.largest.memCapacity = 2 ^ 62 := by decide
theorem test_bounds : max64 = 2 ^ 63 - 1 ∧ min64 = -2 ^ 63 ∧ fits64 max64 ∧ fits64 min64 := by decide
theorem test_beyond_bounds : ¬ fits64 (max64 + 1) ∧ ¬ fits64 (min64 - 1) := by decide
theorem test_cell_widths : 18446744073709551616 = 2 ^ 64 ∧
    340282366920938463463374607431768211456 = 2 ^ 128 ∧
    6277101735386680763835789423207666416102355444464034512896 = 2 ^ 192 := by decide

theorem test_add_immediate_dst_refused : (Instr.add (pos 1) (pos 2) (imm 3)).wellFormed = false := by decide
theorem test_mul_immediate_dst_refused : (Instr.mul (pos 1) (pos 2) (imm 3)).wellFormed = false := by decide
theorem test_in_immediate_dst_refused : (Instr.inp (imm 3)).wellFormed = false := by decide
theorem test_lt_immediate_dst_refused : (Instr.lt (pos 1) (pos 2) (imm 3)).wellFormed = false := by decide
theorem test_eq_immediate_dst_refused : (Instr.eq (pos 1) (pos 2) (imm 3)).wellFormed = false := by decide

/-! ### Decoding: words written out from the digits of 30_encoding.md R303 -/

theorem test_decode_add : decode [w 1001, w 20, w (-1), w 20] = .ok (.add (pos 20) (imm (-1)) (pos 20), []) := by decide
theorem test_decode_mul : decode [w 20102, w 1, w 2, w 3] = .ok (.mul (imm 1) (pos 2) (rel 3), []) := by decide
theorem test_decode_in : decode [w 203, w (-4), w 99] = .ok (.inp (rel (-4)), [w 99]) := by decide
theorem test_decode_out : decode [w 204, w (-1)] = .ok (.out (rel (-1)), []) := by decide
theorem test_decode_jt : decode [w 2105, w 0, w 9] = .ok (.jt (imm 0) (rel 9), []) := by decide
theorem test_decode_jf : decode [w 1006, w 3, w 8] = .ok (.jf (pos 3) (imm 8), []) := by decide
theorem test_decode_lt : decode [w 1207, w 1, w 2, w 3] = .ok (.lt (rel 1) (imm 2) (pos 3), []) := by decide
theorem test_decode_eq : decode [w 22108, w 1, w 2, w 3] = .ok (.eq (imm 1) (rel 2) (rel 3), []) := by decide
theorem test_decode_srel : decode [w 109, w 1] = .ok (.srel (imm 1), []) := by decide
theorem test_decode_halt : decode [w 99] = .ok (.halt, []) := by decide

/-- 95_test_vectors.md section 2.1. -/
theorem test_illegal_words :
    decodeWord (w (-1)) = .error .negativeWord ∧ decodeWord (w 98) = .error .unknownOpcode ∧
    decodeWord (w 0) = .error .unknownOpcode ∧ decodeWord (w 100001) = .error .highDigits ∧
    decodeWord (w 303) = .error .badMode ∧ decodeWord (w 3001) = .error .badMode ∧
    decodeWord (w 11101) = .error .immediateDestination ∧ decodeWord (w 103) = .error .immediateDestination ∧
    decodeWord (w 1099) = .error .unusedSlotMode ∧ decodeWord (w 20004) = .error .unusedSlotMode := by decide

theorem test_short_cells :
    decode [] = .error .noWord ∧ decode [w 1101, w 1, w 2] = .error .missingParameters := by decide

theorem test_table_word : decodeTableWord 16 1101 = some (.add (imm 0) (imm 0) (pos 0)) := by decide

/-! ### One step of each instruction, from 95_test_vectors.md -/

/-- AD1. -/
theorem test_add : (after (step (booted 100 [1, 5, 6, 7, 99, 10, 20, 0]))).map
    (fun t => (t.mem.cell 7, t.pc)) = some (w 30, 4) := by decide
/-- AD6. -/
theorem test_add_overflow : (after (step (booted 100 [1101, max64, 1, 5, 99]))).map
    (fun t => (t.mem.cell 5, t.pc, t.ext, t.fc)) = some (w 0, 0, 5, some .arithmeticOverflow) := by decide
/-- MU2. -/
theorem test_mul : (after (step (booted 100 [1102, -3, 7, 5, 99, 0]))).map
    (fun t => (t.mem.cell 5, t.pc)) = some (w (-21), 4) := by decide
/-- MU6. -/
theorem test_mul_overflow : (after (step (booted 100 [1102, 4294967296, 2147483648, 5, 99]))).map
    (fun t => (t.rs, t.fc)) = some (.faulted, some .arithmeticOverflow) := by decide
/-- IN1. -/
theorem test_in : (after (step { booted 100 [3, 5, 99, 0, 0, 0] with inQ := [w 42] })).map
    (fun t => (t.mem.cell 5, t.inQ, t.pc)) = some (w 42, [], 2) := by decide
/-- IN4: the value is not consumed. -/
theorem test_in_bad_address : (after (step { booted 100 [3, -1, 99] with inQ := [w 8] })).map
    (fun t => (t.fc, t.inQ, t.pc)) = some (some .negativeAddress, [w 8], 0) := by decide
/-- S3, second instruction. -/
theorem test_out : (after (step { booted 100 [109, 1, 204, -1, 99] with pc := 2, rb := w 1 })).map
    (fun t => (t.outQ, t.pc)) = some ([w 109], 4) := by decide
/-- MEM1: a read beyond the extent gives 0 and grows the extent. -/
theorem test_out_beyond_extent : (after (step (booted 100 [4, 50, 99]))).map
    (fun t => (t.outQ, t.ext)) = some ([w 0], 51) := by decide
/-- JT1. -/
theorem test_jt : (after (step (booted 100 [1105, 1, 4, 99, 104, 7, 99]))).map (fun t => t.pc) = some 4 := by decide
/-- X5: the condition is read before the target. -/
theorem test_jt_reads_condition_first : (after (step (booted 100 [5, -1, -5, 99]))).map
    (fun t => (t.fc, t.pc)) = some (some .negativeAddress, 0) := by decide
/-- JF1. -/
theorem test_jf : (after (step (booted 100 [1106, 0, 4, 99, 104, 7, 99]))).map (fun t => t.pc) = some 4 := by decide
/-- JF4, the NOP. -/
theorem test_jf_nop : (after (step (booted 100 [1106, 1, 0, 99]))).map (fun t => t.pc) = some 3 := by decide
/-- LT3: the comparison is signed. -/
theorem test_lt : (after (step (booted 100 [1107, min64, max64, 5, 99, 0]))).map
    (fun t => (t.mem.cell 5, t.pc)) = some (w 1, 4) := by decide
/-- LT4: the old 9 is overwritten. -/
theorem test_lt_false : (after (step (booted 100 [1107, max64, min64, 5, 99, 9]))).map
    (fun t => t.mem.cell 5) = some (w 0) := by decide
/-- EQ3. -/
theorem test_eq : (after (step (booted 100 [1108, -1, -1, 5, 99, 0]))).map
    (fun t => (t.mem.cell 5, t.pc)) = some (w 1, 4) := by decide
/-- EQ4. -/
theorem test_eq_false : (after (step (booted 100 [8, 0, 4, 5, 99, 0]))).map
    (fun t => t.mem.cell 5) = some (w 0) := by decide
/-- SR4, second instruction: the operand is read through the old base. -/
theorem test_srel : (after (step { booted 100 [109, 2, 209, 0, 99] with pc := 2, rb := w 2 })).map
    (fun t => (t.rb, t.pc)) = some (w 211, 4) := by decide
/-- SR5, second instruction. -/
theorem test_srel_overflow : (after (step { booted 100 [109, max64, 109, 1, 99] with pc := 2, rb := w max64 })).map
    (fun t => (t.rb, t.pc, t.fc)) = some (w max64, 2, some .arithmeticOverflow) := by decide
/-- HALT at an address other than 0 (46_halt.md R700). -/
theorem test_halt : (after (step { booted 100 [1105, 1, 3, 99] with pc := 3 })).map
    (fun t => (t.rs, t.pc)) = some (.halted, 0) := by decide
/-- HL3. -/
theorem test_halt_with_mode_digit : (after (step (booted 100 [199]))).map
    (fun t => (t.rs, t.fc)) = some (.faulted, some .illegalInstruction) := by decide
/-- X2: overflow before the destination address. -/
theorem test_overflow_before_destination : (after (step (booted 100 [1101, max64, 1, -1, 99]))).map
    (fun t => t.fc) = some (some .arithmeticOverflow) := by decide
/-- MEM12: growth is kept after a fault. -/
theorem test_growth_kept_after_fault : (after (step (booted 100 [1, 10, -1, 0, 99]))).map
    (fun t => (t.fc, t.ext)) = some (some .negativeAddress, 11) := by decide
/-- The step after `withFetchWord` runs the instruction placed. -/
theorem test_fetch_word : (after (step (State.reset.withFetchWord 16 109))).map
    (fun t => (t.rs, t.pc, t.rb)) = some (.running, 2, w 0) := by decide
theorem test_step_refuses_nothing : core.step (booted 100 [99]) = step (booted 100 [99]) := rfl

/-! ### Driver commands, from 95_test_vectors.md section 2.14 -/

/-- DC1. -/
theorem test_load_run_suspends : issueWithin 5 .run (loadEffect [w 3, w 0, w 4, w 0, w 99] (State.powerOn ⟨100⟩)).2 =
    some (.code 2, { (loadEffect [w 3, w 0, w 4, w 0, w 99] (State.powerOn ⟨100⟩)).2 with rs := .awaitingInput }) := by
  decide
/-- DC6. -/
theorem test_load_too_long : loadEffect [w 1, w 2, w 3] (State.powerOn ⟨2⟩) = (.refused, State.powerOn ⟨2⟩) := by decide
/-- DC7. -/
theorem test_peek_does_not_grow : issueWithin 0 (.peek 50) { booted 100 [4, 50, 99] with rs := .ready } =
    some (.word (w 0), { booted 100 [4, 50, 99] with rs := .ready }) := by decide
/-- DC8. -/
theorem test_write_does_not_resume :
    (issueWithin 0 (.write (w 1)) { booted 100 [3, 5, 99] with rs := .awaitingInput }).map
      (fun r => (r.2.rs, r.2.inQ)) = some (.awaitingInput, [w 1]) := by decide

/-! ### Witnesses: the hypotheses of each statement met, each clause at a boundary -/

/-- A Running engine at the last cell of its memory. -/
def lastCell (v : Int) : State := { booted 4 [0, 0, 0, v] with pc := 3 }

/-- An engine suspended at IN [5] (IN2). -/
def suspended : State := { booted 6 [3, 5, 99] with rs := .awaitingInput }

theorem witness_DecodeOfEncodeIsIdentity : (Instr.add (pos min64) (imm max64) (rel (-1))).wellFormed = true := by decide
theorem witness_DecodedCellsAreTheEncoding : decode [w 22201, w 1, w 2, w 3] = .ok (.add (rel 1) (rel 2) (rel 3), []) := by
  decide
theorem witness_IllegalWordFaultsBeforeItsParameters :
    (lastCell 98).rs = .running ∧ (lastCell 98).pc < (lastCell 98).cfg.memCapacity ∧
    ((lastCell 98).mem.cell 3).toInt % 100 ∉ [1, 2, 3, 4, 5, 6, 7, 8, 9, 99] ∧
    decodeWord ((lastCell (-1)).mem.cell 3) = .error .negativeWord ∧
    decodeWord ((lastCell 100001).mem.cell 3) = .error .highDigits := by decide
theorem witness_PseudoInstructionsExpand : 0 ≤ (w 0).toInt ∧ 0 ≤ (w max64).toInt := by decide
theorem witness_StepRunsTheDecodedInstruction :
    (booted 4 [1101, 1, 2, 0]).rs = .running ∧
    decode ((booted 4 [1101, 1, 2, 0]).mem.cellsFrom 0 4) = .ok (.add (imm 1) (imm 2) (pos 0), []) ∧
    (booted 4 [1101, 1, 2, 0]).pc + 4 ≤ (booted 4 [1101, 1, 2, 0]).cfg.memCapacity := by decide
theorem witness_IdleEngineTakesNoStep : suspended.rs ≠ .running := by decide
theorem witness_WordFetchBeyondTheProgramFaults :
    (({ st with pc := 12 } : State).rs = .running ∧ st.cfg.memCapacity ≤ 12) ∧
    st.mem.within st.ext = true ∧ st.ext ≤ ({ st with pc := 3 } : State).pc ∧
    st.ext ≤ ({ st with pc := 11 } : State).pc ∧ ({ st with pc := 11 } : State).pc < st.cfg.memCapacity := by decide
/-- X4. -/
theorem witness_ParameterFetchBeyondCapacityFaults :
    decodeWord ((booted 2 [1101, 1]).mem.cell 0) = .ok ⟨.add, .immediate, .immediate, .position⟩ ∧
    (booted 2 [1101, 1]).pc < 2 ∧ 2 < (booted 2 [1101, 1]).pc + 1 + Opcode.add.nops := by decide
theorem witness_MemoryAccessPrimitives :
    memRead (-1) st = .raised .negativeAddress st ∧ memRead 12 st = .raised .capacityExceeded st ∧
    memRead 0 st = .ok (w 7) st ∧ memRead 11 st = .ok (w 0) { st with ext := 12 } := by decide
theorem witness_StoreChangesOneCell : st.mem.wf = true ∧ (st.mem.store 0 0#64).wf = true := by decide
theorem witness_CanonicalMemoriesWithEqualCellsAreEqual :
    Memory.wf [(1, w 5), (3, w 6)] = true ∧
    ∀ a, Memory.cell [(1, w 5), (3, w 6)] a = ((Memory.store [] 3 (w 6)).store 1 (w 5)).cell a :=
  ⟨by decide, fun _ => rfl⟩
theorem witness_ReadReturnsTheLatestWrite : st.mem.wf = true ∧
    memWrite 11 (w 4) st = .ok () { st with mem := st.mem.store 11 (w 4), ext := 12 } := by decide
/-- At the extent, below it and at the last cell. -/
theorem witness_GrowthOfTheExtent : st.mem.within st.ext = true ∧
    memRead 3 st = .ok (w 0) { st with ext := 4 } ∧
    memWrite 3 (w 4) st = .ok () { st with mem := st.mem.store 3 (w 4), ext := 4 } ∧
    memRead 2 st = .ok (w (-5)) st ∧ memWrite 2 (w 4) st = .ok () { st with mem := st.mem.store 2 (w 4) } ∧
    memRead 11 st = .ok (w 0) { st with ext := 12 } ∧
    memWrite 11 (w 4) st = .ok () { st with mem := st.mem.store 11 (w 4), ext := 12 } := by decide
theorem witness_StepsOnlyGrowTheExtent :
    (∃ t, step (booted 100 [4, 50, 99]) = .next t ∧ (booted 100 [4, 50, 99]).ext < t.ext) ∧
    (booted 100 [4, 50, 99]).ext ≤ 100 := ⟨⟨_, rfl, by decide⟩, by decide⟩
theorem witness_EffectiveAddressByMode : readOp (rel 10) st = .ok (w 0) { st with ext := 12 } := by decide
theorem witness_ResultWriteGoesToTheEffectiveAddress :
    decode [w 203, w (-4)] = .ok (.inp (rel (-4)), []) ∧ (Instr.inp (rel (-4))).dest? = some (rel (-4)) := by decide
/-- The S5 vector. -/
theorem witness_ModesWithTheSameOperandsAgree :
    SameEffectOperands (.add (pos 9) (imm 4) (pos 11)) (.add (imm 3) (rel 5) (rel 6)) aliased ∧
    SameEffectOperands (.inp (pos 11)) (.inp (rel 6)) aliased ∧
    SameEffectOperands (.out (pos 9)) (.out (rel 4)) aliased ∧
    SameEffectOperands (.jt (pos 9) (imm 4)) (.jt (imm 3) (pos 10)) aliased ∧
    SameEffectOperands (.srel (imm 4)) (.srel (pos 10)) aliased ∧ SameEffectOperands .halt .halt aliased := by
  unfold SameEffectOperands; decide
theorem witness_ImmediateDestinationIsIllegal : (Instr.eq (imm 1) (imm 1) (imm 3)).wellFormed = false := by decide
theorem witness_AddWritesTheExactSum :
    effAddr (pos 12) st = some 12 ∧ operandFault (pos (-1)) st = some .negativeAddress ∧
    operandFault (pos 12) st = some .capacityExceeded ∧
    operandFault (pos 11) st = none ∧ operandFault (rel (-2)) st = some .negativeAddress ∧
    ¬ fits64 ((operandValue (imm max64) st).toInt + (operandValue (imm 1) st).toInt) ∧
    fits64 ((operandValue (imm max64) st).toInt + (operandValue (imm 0) st).toInt) ∧
    st.addressFault 12 = some .capacityExceeded ∧ st.addressFault 11 = none ∧
    (w min64).toInt = (operandValue (imm min64) st).toInt + (operandValue (pos 11) st).toInt := by decide
theorem witness_MulWritesTheExactProduct :
    effAddr (rel 10) st = some 11 ∧ operandFault (rel (-2)) st = some .negativeAddress ∧
    operandFault (rel 11) st = some .capacityExceeded ∧ operandFault (rel 10) st = none ∧
    ¬ fits64 ((operandValue (imm min64) st).toInt * (operandValue (imm (-1)) st).toInt) ∧
    fits64 ((operandValue (imm (-4294967296)) st).toInt * (operandValue (imm 2147483648) st).toInt) ∧
    st.addressFault (-1) = some .negativeAddress ∧ st.addressFault 0 = none ∧
    (w (-35)).toInt = (operandValue (pos 0) st).toInt * (operandValue (pos 2) st).toInt := by decide
theorem witness_LtWritesTheSignedComparison :
    effAddr (pos 0) st = some 0 ∧ operandFault (pos 12) st = some .capacityExceeded ∧
    operandFault (pos 2) st = none ∧ st.addressFault 12 = some .capacityExceeded ∧ st.addressFault 0 = none ∧
    (w 1).toInt = (if (operandValue (pos 2) st).toInt < (operandValue (pos 1) st).toInt then 1 else 0) ∧
    (w 0).toInt = (if (operandValue (imm max64) st).toInt < (operandValue (imm min64) st).toInt then 1 else 0) := by
  decide
theorem witness_EqWritesTheEquality :
    effAddr (rel (-1)) st = some 0 ∧ operandFault (pos (-1)) st = some .negativeAddress ∧
    operandFault (pos 0) st = none ∧ st.addressFault (-1) = some .negativeAddress ∧ st.addressFault 0 = none ∧
    (w 1).toInt = (if operandValue (pos 0) st = operandValue (imm 7) st then 1 else 0) ∧
    (w 0).toInt = (if operandValue (pos 0) st = operandValue (rel 1) st then 1 else 0) := by decide
theorem witness_InTransfersTheOldestInput :
    effAddr (rel (-2)) st = some (-1) ∧ st.inQ = [] ∧ st.addressFault (-1) = some .negativeAddress ∧
    effAddr (pos 11) st = some 11 ∧ st.addressFault 11 = none ∧
    ({ st with inQ := [w 8, w 9] } : State).inQ = w 8 :: [w 9] := by decide
theorem witness_OutAppendsItsOperand :
    operandFault (pos 12) st = some .capacityExceeded ∧ operandFault (pos (-1)) st = some .negativeAddress ∧
    operandFault (pos 11) st = none ∧ operandFault (imm (-1)) st = none := by decide
theorem witness_JtJumpsWhenNotZero :
    operandFault (pos (-1)) st = some .negativeAddress ∧ operandFault (pos 12) st = some .capacityExceeded ∧
    operandFault (pos 2) st = none ∧ (operandValue (pos 2) st).toInt ≠ 0 ∧
    0 ≤ (operandValue (imm 0) st).toInt ∧ 0 ≤ (operandValue (imm max64) st).toInt ∧
    (operandValue (pos 1) st).toInt = 0 := by decide
theorem witness_JfJumpsWhenZero :
    operandFault (rel (-2)) st = some .negativeAddress ∧ operandFault (rel 11) st = some .capacityExceeded ∧
    operandFault (pos 1) st = none ∧ (operandValue (pos 1) st).toInt = 0 ∧
    0 ≤ (operandValue (imm 0) st).toInt ∧ (operandValue (imm min64) st).toInt ≠ 0 := by decide
theorem witness_TakenJumpToNegativeTargetFaults :
    operandFault (pos 0) st = none ∧ operandFault (pos 1) st = none ∧ operandFault (imm (-1)) st = none ∧
    (operandValue (imm (-1)) st).toInt < 0 ∧ (operandValue (pos 0) st).toInt ≠ 0 ∧
    (operandValue (pos 1) st).toInt = 0 := by decide
theorem witness_SrelAddsToTheRelativeBase :
    operandFault (pos (-1)) st = some .negativeAddress ∧ operandFault (imm max64) st = none ∧
    ¬ fits64 (st.rb.toInt + (operandValue (imm max64) st).toInt) ∧
    (w min64).toInt = (State.powerOn ⟨1⟩).rb.toInt + (operandValue (imm min64) (State.powerOn ⟨1⟩)).toInt := by decide
theorem witness_SequentialAdvanceIsTheLength :
    (∃ t, exec (.add (imm 1) (imm 2) (pos 0)) st = .next t ∧ st.rs = .running ∧ t.rs = .running) ∧
    (∃ t, exec (.jt (pos 1) (imm 9)) st = .next t ∧ t.rs = .running ∧ (operandValue (pos 1) st).toInt = 0) ∧
    (∃ t, exec (.jf (pos 0) (imm 9)) st = .next t ∧ t.rs = .running ∧ (operandValue (pos 0) st).toInt ≠ 0) ∧
    st.cfg.Legal ∧ ({ st with pc := 8 } : State).pc + Opcode.add.nops < st.cfg.memCapacity :=
  ⟨⟨_, rfl, by decide⟩, ⟨_, rfl, by decide⟩, ⟨_, rfl, by decide⟩, by decide, by decide⟩
theorem witness_ThreeOperandFrame :
    effAddr (pos 11) st = some 11 ∧
    (∃ t, exec (.mul (pos 0) (pos 2) (pos 11)) st = .next t ∧ t.rs = .running) ∧
    (∃ t, exec (.lt (pos (-1)) (pos 2) (pos 11)) st = .next t ∧ t.rs = .faulted) :=
  ⟨by decide, ⟨_, rfl, by decide⟩, ⟨_, rfl, by decide⟩⟩
theorem witness_InFrame :
    effAddr (pos (-1)) st = some (-1) ∧ (∃ t, exec (.inp (pos (-1))) st = .next t ∧ t.rs = .awaitingInput) ∧
    (∃ t, exec (.inp (pos (-1))) { st with inQ := [w 8] } = .next t ∧ t.rs = .faulted) ∧
    (∃ t, exec (.inp (pos 11)) { st with inQ := [w 8] } = .next t ∧ t.rs = .running) :=
  ⟨by decide, ⟨_, rfl, by decide⟩, ⟨_, rfl, by decide⟩, ⟨_, rfl, by decide⟩⟩
theorem witness_NonStoringFrame :
    Instr.dest? (.out (pos 0)) = none ∧ Instr.dest? .halt = none ∧
    (∃ t, exec (.out (pos 0)) st = .next t ∧ t.rs = .running) ∧
    (∃ t, exec (.srel (pos (-1))) st = .next t ∧ t.rs = .faulted) ∧ ∃ t, exec .halt st = .next t ∧ t.rs = .halted :=
  ⟨by decide, by decide, ⟨_, rfl, by decide⟩, ⟨_, rfl, by decide⟩, ⟨_, rfl, by decide⟩⟩
theorem witness_FaultsArePrecise :
    ∃ t, (booted 100 [1, 10, -1, 0, 99]).rs = .running ∧ step (booted 100 [1, 10, -1, 0, 99]) = .next t ∧
      t.rs = .faulted := ⟨_, by decide, rfl, by decide⟩
theorem witness_OnlyTheTabledFaultsAreRaised :
    ∃ t, (Instr.jt (imm 1) (imm (-1))).wellFormed = true ∧ exec (.jt (imm 1) (imm (-1))) st = .next t ∧
      st.rs = .running ∧ t.rs = .faulted := ⟨_, by decide, rfl, by decide⟩
theorem witness_OnlyInOnEmptyInputSuspends :
    ∃ t, (booted 2 [3, 5]).rs = .running ∧ step (booted 2 [3, 5]) = .next t ∧ t.rs = .awaitingInput :=
  ⟨_, by decide, rfl, by decide⟩
theorem witness_EachChangeHasItsInstruction :
    (∃ t, step (booted 9 [109, 7]) = .next t ∧ t.rb ≠ (booted 9 [109, 7]).rb) ∧
    (∃ t, step { booted 9 [3, 8] with inQ := [w 4] } = .next t ∧ t.inQ ≠ [w 4] ∧ t.mem.cell 8 ≠ 0#64) ∧
    (∃ t, step (booted 9 [104, 7]) = .next t ∧ t.outQ ≠ []) ∧ ∃ t, step (booted 9 [99]) = .next t ∧ t.rs = .halted :=
  ⟨⟨_, rfl, by decide⟩, ⟨_, rfl, by decide⟩, ⟨_, rfl, by decide⟩, ⟨_, rfl, by decide⟩⟩
theorem witness_QueuesAreFifo :
    ∃ t, step { booted 9 [3, 8] with inQ := [w 4, w 5] } = .next t ∧ w 4 :: t.inQ = [w 4, w 5] := ⟨_, rfl, by decide⟩
theorem witness_RunStateMachine :
    (∃ t, (booted 9 [99]).rs = .running ∧ step (booted 9 [99]) = .next t) ∧ suspended.rs ≠ .running ∧
    issueWithin 1 .run suspended = some (.code 2, suspended) ∧
    (∃ t, issueWithin 0 .reset suspended = some (.done, t)) ∧
    (∃ t, issueWithin 0 (.load [w 1, w 2, w 3, w 4, w 5, w 6]) suspended = some (.accepted, t)) ∧
    issueWithin 0 .read suspended = some (.value 0#64 false, suspended) :=
  ⟨⟨_, by decide, rfl⟩, by decide, by decide, ⟨_, rfl⟩, ⟨_, rfl⟩, by decide⟩
theorem witness_PowerOnSatisfiesTheInvariant : Config.Legal ⟨1⟩ ∧ Config.largest.Legal := by decide
theorem witness_StepKeepsTheInvariant :
    ∃ t, (booted 9 [1101, 1, 2, 8, 99]).Inv ∧ step (booted 9 [1101, 1, 2, 8, 99]) = .next t ∧ t.ext = 9 :=
  ⟨_, by decide, rfl, by decide⟩
/-- Reachable: after a load, inside its run, and suspended. -/
theorem witness_ReachableStatesMeetTheInvariants :
    Config.Legal ⟨6⟩ ∧ Reachable ⟨6⟩ (booted 6 [3, 5, 99]) ∧ Reachable ⟨6⟩ suspended ∧
    suspended.rs = .awaitingInput := by
  have h0 : Reachable ⟨6⟩ { booted 6 [3, 5, 99] with rs := .ready } :=
    .command 0 (.load [w 3, w 5, w 99]) _ .accepted _ .powerOn (by decide)
  exact ⟨by decide, .runBegins _ h0, .command 1 .run _ (.code 2) _ h0 (by decide), by decide⟩
theorem witness_ExtentIsInvisible :
    sameButExt suspended { suspended with ext := 6 } ∧ Command.run ≠ .extent ∧
    issueWithin 1 .run suspended = some (.code 2, suspended) := by decide
theorem witness_ResetCommandEffect : suspended.rs ≠ .running := by decide
theorem witness_LoadCommandEffect : suspended.rs ≠ .running ∧
    suspended.cfg.memCapacity < [w 1, w 2, w 3, w 4, w 5, w 6, w 7].length ∧
    [w 1, w 2, w 3, w 4, w 5, w 6].length ≤ suspended.cfg.memCapacity := by decide
theorem witness_WriteCommandOnlyQueues : (suspended.takeFault .negativeAddress).rs ≠ .running := by decide
theorem witness_ReadCommand : suspended.rs ≠ .running ∧ suspended.outQ = [] ∧
    (suspended.enqueueOut (w 8)).outQ = w 8 :: [] := by decide
theorem witness_StateAndCanReadCommands : (State.powerOn ⟨1⟩).rs ≠ .running := by decide
theorem witness_InspectionCommands : suspended.rs ≠ .running ∧ suspended.mem.within suspended.ext = true ∧
    (suspended.ext : Int) ≤ 3 ∧ (5 : Int) < suspended.cfg.memCapacity ∧ (suspended.cfg.memCapacity : Int) ≤ 6 := by decide
theorem witness_RunCommandStepsUntilNotRunning :
    suspended.halt.rs = .halted ∧ (suspended.takeFault .negativeAddress).rs = .faulted ∧
    (State.powerOn ⟨1⟩).rs = .ready ∧ suspended.rs = .awaitingInput ∧
    RunReturns suspended suspended := ⟨by decide, by decide, by decide, by decide, 1, by decide⟩
theorem witness_ResumeReattemptsTheSuspendedIn :
    suspended.Inv ∧ suspended.rs = .awaitingInput ∧ suspended.inQ = [] ∧
    decode (suspended.mem.cellsFrom suspended.pc 2) = .ok (.inp (pos 5), []) ∧
    effAddr (pos 5) suspended = some 5 ∧ suspended.addressFault 5 = none := by decide
theorem witness_BusyInterfaceRefuses : st.rs = .running := by decide
theorem witness_InstancesAreIndependent :
    ∃ cores, issueAt 1 1 .run [st, suspended] = some (.code 2, cores) := ⟨_, rfl⟩
theorem witness_PowerOnIsTheEmptyLoad : suspended.rs ≠ .running ∧ Config.Legal ⟨1⟩ := by decide
theorem witness_HaltedAndFaultedAreTerminal :
    suspended.halt.rs = .halted ∧ (suspended.takeFault .negativeAddress).rs = .faulted ∧
    ∃ t, issueWithin 0 .reset suspended.halt = some (.done, t) ∧ t.rs ≠ suspended.halt.rs :=
  ⟨by decide, by decide, _, rfl, by decide⟩

end Sys2Proof.Tests
end

section
/-! PROOFS. The statements of 10_state.md: canonical memories, what a body and a step can do as one case analysis,
frames, the invariant and the reachable states, and the invisibility of the extent. -/

namespace Sys2Proof.Machine

/-! ### Canonical memories -/

theorem Memory.cell_cons_same (k : Nat) (v : Word) (m : Memory) : Memory.cell ((k, v) :: m) k = v := by
  simp [Memory.cell_cons]

/-- A canonical memory is determined by its cells: the first listed address is the least one whose cell is not 0. -/
theorem Memory.eq_of_cells_eq {m m' : Memory} {lo lo' : Nat} (hm : Memory.wfFrom lo m = true)
    (hm' : Memory.wfFrom lo' m' = true) (hc : ∀ a, m.cell a = m'.cell a) : m = m' := by
  induction m generalizing m' lo lo' with
  | nil =>
    cases m' with
    | nil => rfl
    | cons c' m' =>
      obtain ⟨k', v'⟩ := c'
      obtain ⟨-, hv', -⟩ := (Memory.wfFrom_cons ..).mp hm'
      exact absurd ((Memory.cell_cons_same k' v' m').symm.trans (hc k').symm) hv'
  | cons c m ih =>
    obtain ⟨k, v⟩ := c
    obtain ⟨-, hv, ht⟩ := (Memory.wfFrom_cons ..).mp hm
    have hk := Memory.cell_cons_same k v m
    cases m' with
    | nil => exact absurd (hk.symm.trans (hc k)) hv
    | cons c' m' =>
      obtain ⟨k', v'⟩ := c'
      obtain ⟨-, hv', ht'⟩ := (Memory.wfFrom_cons ..).mp hm'
      have hk' := Memory.cell_cons_same k' v' m'
      have hkk : k = k' := by
        rcases Nat.lt_trichotomy k k' with hlt | heq | hgt
        · have h0 := Memory.cell_below ((Memory.wfFrom_cons ..).mpr ⟨le_rfl, hv', ht'⟩) hlt
          exact absurd (hk.symm.trans ((hc k).trans h0)) hv
        · exact heq
        · have h0 := Memory.cell_below ((Memory.wfFrom_cons ..).mpr ⟨le_rfl, hv, ht⟩) hgt
          exact absurd (hk'.symm.trans ((hc k').symm.trans h0)) hv'
      subst hkk
      have hvv : v = v' := hk.symm.trans ((hc k).trans hk')
      have htail : ∀ a, Memory.cell m a = Memory.cell m' a := by
        intro a
        by_cases ha : k = a
        · rw [Memory.cell_below ht (by omega), Memory.cell_below ht' (by omega)]
        · simpa [Memory.cell_cons, ha] using hc a
      rw [hvv, ih ht ht' htail]

/-- Settles O14: canonical memories with the same cells list the same addresses. -/
theorem canonicalMemoriesWithEqualCellsAreEqual : Obligations.CanonicalMemoriesWithEqualCellsAreEqual :=
  fun _ _ hm hm' hc => Memory.eq_of_cells_eq hm hm' hc

/-! ### The effect of a body -/

/-- What the body of an instruction can do to the state `s` (10_state.md R112), one constructor per outcome. -/
inductive BodyEffect (s : State) : Instr → State → Prop
  /-- A fault; HALT has none. -/
  | fault {i : Instr} {t : State} (hi : i ≠ .halt) (hf : FaultOf s t) : BodyEffect s i t
  /-- ADD, MUL, LT and EQ store a result. -/
  | store {i : Instr} {d : Operand} {e : Int} {n : Nat} (r : Word) (hd : i.dest? = some d) (hi : ∀ d, i ≠ .inp d)
      (he : effAddr d s = some e) (ha : s.addressFault e = none) (hn : GrownTo s n) (hlt : e.toNat < n) :
      BodyEffect s i { s with mem := s.mem.store e.toNat r, ext := n, pc := s.pc + 4 }
  /-- IN suspends on an empty queue. -/
  | suspend (d : Operand) (hq : s.inQ = []) : BodyEffect s (.inp d) { s with rs := .awaitingInput }
  /-- IN stores the oldest input. -/
  | consume {d : Operand} {e : Int} {v : Word} {q : List Word} {n : Nat} (hq : s.inQ = v :: q)
      (he : effAddr d s = some e) (ha : s.addressFault e = none) (hn : GrownTo s n) (hlt : e.toNat < n) :
      BodyEffect s (.inp d) { s with mem := s.mem.store e.toNat v, ext := n, inQ := q, pc := s.pc + 2 }
  /-- OUT appends a value. -/
  | emit {n : Nat} (a : Operand) (v : Word) (hn : GrownTo s n) :
      BodyEffect s (.out a) { s with ext := n, outQ := s.outQ ++ [v], pc := s.pc + 2 }
  /-- JT and JF go on or jump. -/
  | jump {i : Instr} {n p : Nat} (hi : i.opcode = .jt ∨ i.opcode = .jf) (hn : GrownTo s n)
      (hp : p = s.pc + 3 ∨ p ≤ 9223372036854775807) : BodyEffect s i { s with ext := n, pc := p }
  /-- SREL sets the relative base. -/
  | rebase {n : Nat} (a : Operand) (r : Word) (hn : GrownTo s n) :
      BodyEffect s (.srel a) { s with ext := n, rb := r, pc := s.pc + 2 }
  /-- HALT. -/
  | halt : BodyEffect s .halt { s with rs := .halted, pc := 0 }

theorem threeOperand_effect {alu : Word → Word → State → Attempt Word} (hp : PureAlu alu) {i : Instr}
    {a b d : Operand} {s t : State} (hd : i.dest? = some d) (hi : ∀ d, i ≠ .inp d)
    (h : (threeOperand alu a b d s).finish = .next t) : BodyEffect s i t := by
  rcases threeOperand_next hp h with hf | ⟨e, r, n, he, ha, hn, hlt, rfl⟩
  · exact .fault (by rintro rfl; cases hd) hf
  · exact .store r hd hi he ha hn hlt

/-- The value of a word that is not negative is a legal `pc` (10_state.md R102). -/
theorem toNat_toInt_le (w : Word) : w.toInt.toNat ≤ 9223372036854775807 := by
  have := (fits64_toInt w).2
  omega

/-- The body of every instruction has one of the effects. -/
theorem exec_effect {i : Instr} {s t : State} (h : exec i s = .next t) : BodyEffect s i t := by
  cases i with
  | add a b d => exact threeOperand_effect pureAlu_add rfl nofun h
  | mul a b d => exact threeOperand_effect pureAlu_mul rfl nofun h
  | lt a b d => exact threeOperand_effect pureAlu_lt rfl nofun h
  | eq a b d => exact threeOperand_effect pureAlu_eq rfl nofun h
  | inp d =>
    rcases execIn_next h with hf | ⟨hq, rfl⟩ | ⟨e, v, n, he, ha, hn, hlt, hq, ht⟩
    · exact .fault nofun hf
    · exact .suspend d hq
    · rw [ht]
      exact .consume hq he ha hn hlt
  | out a =>
    rcases execOut_next h with hf | ⟨n, hn, rfl⟩
    · exact .fault nofun hf
    · exact .emit a _ hn
  | jt a b =>
    rcases execJt_next h with hf | ⟨n, hn, -, rfl⟩ | ⟨n, hn, -, -, rfl⟩
    · exact .fault nofun hf
    · exact .jump (.inl rfl) hn (.inl rfl)
    · exact .jump (.inl rfl) hn (.inr (toNat_toInt_le _))
  | jf a b =>
    rcases execJf_next h with hf | ⟨n, hn, -, rfl⟩ | ⟨n, hn, -, -, rfl⟩
    · exact .fault nofun hf
    · exact .jump (.inr rfl) hn (.inl rfl)
    · exact .jump (.inr rfl) hn (.inr (toNat_toInt_le _))
  | srel a =>
    rcases execSrel_next h with hf | ⟨n, r, hn, rfl⟩
    · exact .fault nofun hf
    · exact .rebase a r hn
  | halt =>
    cases (execHalt_eq s).symm.trans h
    exact .halt

namespace BodyEffect
variable {s t : State} {i : Instr}

theorem cfg_eq (h : BodyEffect s i t) : t.cfg = s.cfg := by
  cases h with
  | fault _ hf => obtain ⟨c, n, -, rfl⟩ := hf; rfl
  | _ => rfl

theorem prog_eq (h : BodyEffect s i t) : t.prog = s.prog := by
  cases h with
  | fault _ hf => obtain ⟨c, n, -, rfl⟩ := hf; rfl
  | _ => rfl

/-- A body grows the extent as accesses within the capacity do (20_memory.md R212). -/
theorem grownTo (h : BodyEffect s i t) : GrownTo s t.ext := by
  cases h with
  | fault _ hf => obtain ⟨c, n, hn, rfl⟩ := hf; exact hn
  | suspend d hq => exact grownTo_self s
  | halt => exact grownTo_self s
  | _ => assumption

theorem rb_eq_or_srel (h : BodyEffect s i t) : t.rb = s.rb ∨ ∃ a, i = .srel a := by
  cases h with
  | fault _ hf => obtain ⟨c, n, -, rfl⟩ := hf; exact .inl rfl
  | rebase a r hn => exact .inr ⟨a, rfl⟩
  | _ => exact .inl rfl

theorem outQ_eq_or_out (h : BodyEffect s i t) : t.outQ = s.outQ ∨ ∃ a, i = .out a := by
  cases h with
  | fault _ hf => obtain ⟨c, n, -, rfl⟩ := hf; exact .inl rfl
  | emit a v hn => exact .inr ⟨a, rfl⟩
  | _ => exact .inl rfl

theorem inQ_eq_or_inp (h : BodyEffect s i t) : t.inQ = s.inQ ∨ ∃ d, i = .inp d := by
  cases h with
  | fault _ hf => obtain ⟨c, n, -, rfl⟩ := hf; exact .inl rfl
  | consume hq he ha hn hlt => exact .inr ⟨_, rfl⟩
  | _ => exact .inl rfl

/-- Memory stays, or the instruction has a destination and the one cell it names is stored (20_memory.md R215). -/
theorem mem_eq_or_store (h : BodyEffect s i t) :
    t.mem = s.mem ∨ ∃ d e r, i.dest? = some d ∧ effAddr d s = some e ∧ 0 ≤ e ∧ e.toNat < t.ext ∧
      t.mem = s.mem.store e.toNat r := by
  cases h with
  | fault _ hf => obtain ⟨c, n, -, rfl⟩ := hf; exact .inl rfl
  | store r hd hi he ha hn hlt =>
    exact .inr ⟨_, _, r, hd, he, (State.addressFault_eq_none.mp ha).1, hlt, rfl⟩
  | consume hq he ha hn hlt =>
    exact .inr ⟨_, _, _, rfl, he, (State.addressFault_eq_none.mp ha).1, hlt, rfl⟩
  | _ => exact .inl rfl

theorem mem_eq (h : BodyEffect s i t) (hd : i.dest? = none) : t.mem = s.mem := by
  rcases h.mem_eq_or_store with hm | ⟨d, e, r, hd', -⟩
  · exact hm
  · rw [hd] at hd'
    cases hd'

/-- Every cell but the one at the destination's effective address stays (20_memory.md R215). -/
theorem cell_eq (h : BodyEffect s i t) {d : Operand} {e : Int} (hd : i.dest? = some d) (he : effAddr d s = some e)
    {x : Nat} (hx : (x : Int) ≠ e) : t.mem.cell x = s.mem.cell x := by
  rcases h.mem_eq_or_store with hm | ⟨d', e', r, hd', he', h0, -, hm⟩
  · rw [hm]
  · obtain rfl : d = d' := Option.some.inj (hd.symm.trans hd')
    obtain rfl : e = e' := Option.some.inj (he.symm.trans he')
    rw [hm, Memory.cell_store_other _ _ (by omega)]

/-- Only HALT makes the engine Halted (46_halt.md R700). -/
theorem rs_halted_iff (h : BodyEffect s i t) (hs : s.rs ≠ .halted) : t.rs = .halted ↔ i = .halt := by
  cases h with
  | fault hi hf => obtain ⟨c, n, -, rfl⟩ := hf; simp [hi]
  | store r hd hi he ha hn hlt =>
    have : i ≠ .halt := by rintro rfl; cases hd
    simp [hs, this]
  | jump hi hn hp =>
    have : i ≠ .halt := by rintro rfl; simp [Instr.opcode] at hi
    simp [hs, this]
  | _ => simp [hs]

end BodyEffect

/-! ### Frames -/

/-- Settles O35: the effects of an instruction that stores a result are a fault and the store. -/
theorem threeOperandFrame : Obligations.ThreeOperandFrame := by
  intro i a b d s t e hi he h
  have hd : i.dest? = some d := by rcases hi with rfl | rfl | rfl | rfl <;> rfl
  have hb := exec_effect h
  refine ⟨fun x hx => hb.cell_eq hd he hx, hb.cfg_eq, hb.prog_eq, hb.rb_eq_or_srel.resolve_right ?_,
    hb.inQ_eq_or_inp.resolve_right ?_, hb.outQ_eq_or_out.resolve_right ?_, ?_⟩
  · rintro ⟨a, rfl⟩; cases hd
  · rintro ⟨d, rfl⟩; simp at hi
  · rintro ⟨a, rfl⟩; cases hd
  · cases hb with
    | fault _ hf => obtain ⟨c, n, -, rfl⟩ := hf; exact .inr ⟨rfl, rfl, rfl⟩
    | store r hd' hi' he' ha hn hlt => exact .inl ⟨rfl, rfl⟩
    | jump hj hn hp => rcases hi with rfl | rfl | rfl | rfl <;> simp [Instr.opcode] at hj
    | suspend d hq => simp at hi
    | consume hq he' ha hn hlt => simp at hi
    | emit a v hn => cases hd
    | rebase a r hn => cases hd
    | halt => cases hd

/-- Settles O36: the effects of IN are a fault, suspension and the store of the oldest input. -/
theorem inFrame : Obligations.InFrame := by
  intro d s t e he h
  have hb := exec_effect h
  refine ⟨fun x hx => hb.cell_eq rfl he hx, hb.cfg_eq, hb.prog_eq, hb.rb_eq_or_srel.resolve_right nofun,
    hb.outQ_eq_or_out.resolve_right nofun, ?_⟩
  cases hb with
  | fault _ hf => obtain ⟨c, n, -, rfl⟩ := hf; exact .inr (.inr ⟨rfl, rfl, rfl, rfl⟩)
  | store r hd hi he' ha hn hlt => exact absurd rfl (hi d)
  | suspend d hq => exact .inr (.inl ⟨rfl, rfl, rfl, rfl, rfl⟩)
  | consume hq he' ha hn hlt => exact .inl ⟨rfl, rfl, by simp [hq]⟩
  | jump hj hn hp => simp [Instr.opcode] at hj

/-- Settles O37: without a destination nothing is stored, and each other piece of state names its instruction. -/
theorem nonStoringFrame : Obligations.NonStoringFrame := by
  intro i s t hd h
  have hb := exec_effect h
  have hmem := hb.mem_eq hd
  refine ⟨fun x => by rw [hmem], hb.cfg_eq, hb.prog_eq, hb.inQ_eq_or_inp.resolve_right ?_, fun hi =>
    hb.outQ_eq_or_out.resolve_right ?_, fun hi => hb.rb_eq_or_srel.resolve_right ?_, fun hi => ?_, fun hi => ?_⟩
  · rintro ⟨d, rfl⟩; cases hd
  · rintro ⟨a, rfl⟩; exact hi rfl
  · rintro ⟨a, rfl⟩; exact hi rfl
  · cases hb with
    | fault _ hf => obtain ⟨c, n, -, rfl⟩ := hf; exact .inr ⟨rfl, rfl, rfl, rfl⟩
    | suspend d hq => cases hd
    | halt => exact absurd rfl hi
    | _ => exact .inl ⟨rfl, rfl⟩
  · obtain rfl : i = .halt := by cases i with
    | halt => rfl
    | _ => cases hi
    cases hb with
    | fault hne hf => exact absurd rfl hne
    | store r hd' hi' he' ha hn hlt => cases hd'
    | jump hj hn hp => simp [Instr.opcode] at hj
    | halt => exact ⟨rfl, rfl, rfl⟩

/-! ### What a step can do -/

theorem step_idle {s : State} (hr : s.rs ≠ .running) : step s = .next s := by
  simp [step, hr]

/-- A fetch that goes on has grown the extent alone. -/
theorem fetchInstr_ok_grown {s s1 : State} {i : Instr} (h : fetchInstr s = .ok i s1) :
    ∃ n, GrownTo s n ∧ s.pc + i.length ≤ n ∧ s1 = { s with ext := n } := by
  obtain ⟨hd, -, -, -, hc, rfl⟩ := fetchInstr_eq_ok h
  exact ⟨_, ⟨le_max_left _ _, fun hs => max_le hs hc⟩, le_max_right _ _, rfl⟩

/-- Everything a step can do: nothing unless the engine is Running, a fault of the fetch, or the effect of a body in the
state grown by the fetch (40_engine.md R400, R410). -/
theorem step_cases {s t : State} (h : step s = .next t) :
    (s.rs ≠ .running ∧ t = s) ∨
    (s.rs = .running ∧ (∃ c s1, fetchInstr s = .raised c s1) ∧ FaultOf s t) ∨
    (s.rs = .running ∧ ∃ i s1, fetchInstr s = .ok i s1 ∧ BodyEffect s1 i t) := by
  by_cases hr : s.rs = .running
  · rcases step_running hr h with ⟨hf, c, s1, hfetch, -⟩ | ⟨i, s1, hfetch, hx⟩
    · exact .inr (.inl ⟨hr, ⟨c, s1, hfetch⟩, hf⟩)
    · exact .inr (.inr ⟨hr, i, s1, hfetch, exec_effect hx⟩)
  · rw [step_idle hr] at h
    cases h
    exact .inl ⟨hr, rfl⟩

/-- A step grows the extent as accesses within the capacity do, and keeps the program store and the configuration. -/
theorem step_grown {s t : State} (h : step s = .next t) : GrownTo s t.ext ∧ t.prog = s.prog ∧ t.cfg = s.cfg := by
  rcases step_cases h with ⟨-, rfl⟩ | ⟨-, -, c, n, hn, rfl⟩ | ⟨-, i, s1, hf, hb⟩
  · exact ⟨grownTo_self _, rfl, rfl⟩
  · exact ⟨hn, rfl, rfl⟩
  · obtain ⟨n, hn, -, rfl⟩ := fetchInstr_ok_grown hf
    exact ⟨grownTo_trans (t := { s with ext := n }) rfl hn hb.grownTo, hb.prog_eq, hb.cfg_eq⟩

/-- Settles O17: the fetch and the body each grow the extent within the capacity. -/
theorem stepsOnlyGrowTheExtent : Obligations.StepsOnlyGrowTheExtent := by
  intro s t h
  obtain ⟨⟨hle, hcap⟩, hprog, hcfg⟩ := step_grown h
  exact ⟨hle, hcap, hprog, hcfg⟩

/-- Settles O41: a fault of the fetch changes none of these pieces, and the effect of a body names its instruction. -/
theorem eachChangeHasItsInstruction : Obligations.EachChangeHasItsInstruction := by
  intro s t hr h
  rcases step_cases h with ⟨hne, -⟩ | ⟨-, ⟨c, s1, hf⟩, c', n, -, rfl⟩ | ⟨-, i, s1, hf, hb⟩
  · exact absurd hr hne
  · simp [hf]
  · obtain ⟨n, -, -, rfl⟩ := fetchInstr_ok_grown hf
    simp only [hf, Attempt.ok.injEq]
    refine ⟨fun hne => ?_, fun hne => ?_, fun hne => ?_, ?_, ?_⟩
    · obtain ⟨a, rfl⟩ := hb.rb_eq_or_srel.resolve_left hne
      exact ⟨a, _, rfl, rfl⟩
    · obtain ⟨d, rfl⟩ := hb.inQ_eq_or_inp.resolve_left hne
      exact ⟨d, _, rfl, rfl⟩
    · obtain ⟨a, rfl⟩ := hb.outQ_eq_or_out.resolve_left hne
      exact ⟨a, _, rfl, rfl⟩
    · rintro ⟨x, hx⟩
      rcases hb.mem_eq_or_store with hm | ⟨d, e, r, hd, -⟩
      · exact absurd (by rw [hm]) hx
      · exact ⟨i, d, _, ⟨rfl, rfl⟩, hd⟩
    · rw [hb.rs_halted_iff (by simp [hr])]
      exact ⟨fun hi => ⟨_, hi, rfl⟩, fun ⟨_, hi, _⟩ => hi⟩

/-! ### The invariant -/

/-- Settles O44: power-on holds no cell, no program and no cause, whatever the capacity. -/
theorem powerOnSatisfiesTheInvariant : Obligations.PowerOnSatisfiesTheInvariant := by
  have hpower : ∀ cfg : Config, cfg.Legal → (State.powerOn cfg).Inv := fun cfg hc =>
    ⟨hc, rfl, rfl, le_rfl, Nat.zero_le _, Nat.zero_le _, by simp [State.powerOn], by simp [State.powerOn]⟩
  exact ⟨hpower, hpower Config.largest (by decide)⟩

/-- A state with a grown extent meets the invariant still. -/
theorem inv_withExt {s : State} {n : Nat} (h : s.Inv) (hn : GrownTo s n) : State.Inv { s with ext := n } := by
  obtain ⟨hcfg, hwf, hin, hprog, hext, hpc, hfc, hwait⟩ := h
  obtain ⟨hle, hcap⟩ := hn
  exact ⟨hcfg, hwf, Memory.within_mono hin hle, hprog.trans hle, hcap hext, hpc, hfc,
    fun hr => ⟨(hwait hr).1, (hwait hr).2.trans hle⟩⟩

/-- A fault keeps the invariant: the state has its cause and is not suspended. -/
theorem inv_of_faultOf {s t : State} (h : s.Inv) (hf : FaultOf s t) : t.Inv := by
  obtain ⟨c, n, hn, rfl⟩ := hf
  obtain ⟨hcfg, hwf, hin, hprog, hext, hpc, -, -⟩ := inv_withExt h hn
  exact ⟨hcfg, hwf, hin, hprog, hext, hpc, by simp, by simp⟩

namespace BodyEffect
variable {s t : State} {i : Instr}

/-- The store of an instruction keeps memory canonical and within the extent. -/
theorem keeps_memory (h : BodyEffect s i t) (hwf : s.mem.wf = true) (hin : s.mem.within s.ext = true) :
    t.mem.wf = true ∧ t.mem.within t.ext = true := by
  have hin' := Memory.within_mono hin h.grownTo.1
  rcases h.mem_eq_or_store with hm | ⟨d, e, r, -, -, -, hlt, hm⟩
  · rw [hm]
    exact ⟨hwf, hin'⟩
  · rw [hm]
    exact ⟨Memory.wf_store hwf _ r, Memory.within_store hin' hlt r⟩

/-- A body leaves `pc`, advances it by at most 4, sets it to 0 or jumps to the value of a word (40_engine.md R413). -/
theorem pc_le (h : BodyEffect s i t) (hpc : s.pc + 4 ≤ 9223372036854775807) : t.pc ≤ 9223372036854775807 := by
  cases h with
  | fault _ hf => obtain ⟨c, n, -, rfl⟩ := hf; simp only; omega
  | _ => simp only; omega

/-- A Running engine without a cause has one after a body exactly when it is Faulted. -/
theorem fc_eq_none_iff (h : BodyEffect s i t) (hr : s.rs = .running) (hfc : s.fc = none) :
    t.fc = none ↔ t.rs ≠ .faulted := by
  cases h with
  | fault _ hf => obtain ⟨c, n, -, rfl⟩ := hf; simp
  | _ => simp [hr, hfc]

/-- Only IN suspends a Running engine, and it changes the run state alone (42_io.md R500). -/
theorem suspends (h : BodyEffect s i t) (hr : s.rs = .running) (ht : t.rs = .awaitingInput) :
    (∃ d, i = .inp d) ∧ t = { s with rs := .awaitingInput } := by
  cases h with
  | fault _ hf => obtain ⟨c, n, -, rfl⟩ := hf; cases ht
  | suspend d hq => exact ⟨⟨d, rfl⟩, rfl⟩
  | halt => cases ht
  | _ => simp [hr] at ht

/-- A body keeps the invariant of a Running engine that has fetched the instruction from the cells at `pc`. -/
theorem keeps_inv (h : BodyEffect s i t) (hinv : s.Inv) (hr : s.rs = .running) (hpc : s.pc + i.length ≤ s.ext)
    (hw : ∃ hd, decodeWord (s.mem.cell s.pc) = .ok hd ∧ hd.op = i.opcode) : t.Inv := by
  obtain ⟨hcfg, hwf, hin, hprog, hext, -, hfc, -⟩ := hinv
  have hlen : 1 ≤ i.length := Nat.le_add_right _ _
  have hmax := hcfg.2
  obtain ⟨hgrow, hcap⟩ := h.grownTo
  obtain ⟨hwf', hin'⟩ := h.keeps_memory hwf hin
  refine ⟨h.cfg_eq ▸ hcfg, hwf', hin', ?_, ?_, h.pc_le (by omega),
    h.fc_eq_none_iff hr (hfc.mpr (by simp [hr])), ?_⟩
  · rw [h.prog_eq]
    exact hprog.trans hgrow
  · rw [h.cfg_eq]
    exact hcap hext
  · intro ht
    obtain ⟨⟨d, rfl⟩, rfl⟩ := h.suspends hr ht
    obtain ⟨hd, hdec, hop⟩ := hw
    exact ⟨by simp [atIn, hdec, hop, Instr.opcode], hpc⟩

end BodyEffect

/-- Settles O45: the fetch grows the extent within the capacity, and faults and bodies keep the invariant. -/
theorem stepKeepsTheInvariant : Obligations.StepKeepsTheInvariant := by
  intro s t hinv h
  rcases step_cases h with ⟨-, rfl⟩ | ⟨-, -, hf⟩ | ⟨hr, i, s1, hf, hb⟩
  · exact hinv
  · exact inv_of_faultOf hinv hf
  · obtain ⟨hd, hdec, -, hop, -, -⟩ := fetchInstr_eq_ok hf
    obtain ⟨n, hn, hpc, rfl⟩ := fetchInstr_ok_grown hf
    exact hb.keeps_inv (inv_withExt hinv hn) hr hpc ⟨hd, hdec, hop.symm⟩

/-! ### Reachable states -/

/-- The loop of `run()` does nothing unless the engine is Running (48_driver_commands.md R763). -/
theorem runLoop_idle {n : Nat} {s : State} (hr : s.rs ≠ .running) : runLoop n s = some s := by
  cases n <;> simp [runLoop, hr]

theorem runLoop_zero {s : State} (hr : s.rs = .running) : runLoop 0 s = none := by simp [runLoop, hr]

theorem runLoop_succ {n : Nat} {s u : State} (hr : s.rs = .running) (hu : step s = .next u) :
    runLoop (n + 1) s = runLoop n u := by simp [runLoop, hr, hu]

/-- The loop of `run()` returns a state that is not Running and has what every step keeps. -/
theorem runLoop_returns {P : State → Prop} (hP : ∀ s t, P s → step s = .next t → P t) {n : Nat} {s t : State}
    (h : runLoop n s = some t) (hs : P s) : P t ∧ t.rs ≠ .running := by
  induction n generalizing s with
  | zero =>
    by_cases hr : s.rs = .running
    · cases (runLoop_zero hr).symm.trans h
    · cases (runLoop_idle hr).symm.trans h
      exact ⟨hs, hr⟩
  | succ n ih =>
    by_cases hr : s.rs = .running
    · obtain ⟨u, hu⟩ := step_next s
      rw [runLoop_succ hr hu] at h
      exact ih h (hP s u hs hu)
    · cases (runLoop_idle hr).symm.trans h
      exact ⟨hs, hr⟩

theorem core_run_step {k : Nat} {s t : State} (h : step s = .next t) :
    Sys2Proof.core.run (k + 1) s = Sys2Proof.core.run k t := by
  have h' : Sys2Proof.core.step s = .next t := h
  simp only [Host.Core.run, h']

/-- One more step at the end of a run of steps. -/
theorem core_run_snoc {k : Nat} {s t u : State} (h : Sys2Proof.core.run k s = .next t) (ht : step t = .next u) :
    Sys2Proof.core.run (k + 1) s = .next u := by
  induction k generalizing s with
  | zero =>
    cases h
    exact core_run_step ht
  | succ k ih =>
    obtain ⟨v, hv⟩ := step_next s
    rw [core_run_step hv] at h ⊢
    exact ih h

/-- A reset gives a state that meets the invariant when the program store fits the capacity (10_state.md R114). -/
theorem resetEffect_inv {s : State} (hc : s.cfg.Legal) (hp : s.prog.length ≤ s.cfg.memCapacity) :
    (resetEffect s).Inv :=
  ⟨hc, Memory.wf_image _, Memory.within_image _, le_rfl, hp, Nat.zero_le _, by simp [resetEffect],
    by simp [resetEffect]⟩

/-- What a command can leave: the same state, or what reset, load, write, read and run do to a state that is not Running
(48_driver_commands.md R751). -/
theorem issueWithin_state {n : Nat} {c : Command} {s t : State} {r : Response}
    (h : issueWithin n c s = some (r, t)) :
    t = s ∨
    s.rs ≠ .running ∧
      (t = resetEffect s ∨
        (∃ P : List Word, P.length ≤ s.cfg.memCapacity ∧ t = resetEffect { s with prog := P }) ∨
        (∃ v, t = writeEffect v s) ∨
        (∃ q, t = { s with outQ := q }) ∨
        runLoop n (beginRun s) = some t) := by
  unfold issueWithin at h
  split at h
  · cases h
    exact .inl rfl
  · rename_i hr
    cases c with
    | load P =>
      simp only [loadEffect] at h
      split at h
      · cases h
        exact .inl rfl
      · rename_i hP
        cases h
        exact .inr ⟨hr, .inr (.inl ⟨P, by omega, rfl⟩)⟩
    | reset =>
      cases h
      exact .inr ⟨hr, .inl rfl⟩
    | write v =>
      cases h
      exact .inr ⟨hr, .inr (.inr (.inl ⟨v, rfl⟩))⟩
    | run =>
      obtain ⟨u, hu, hut⟩ := Option.map_eq_some_iff.mp h
      cases hut
      exact .inr ⟨hr, .inr (.inr (.inr (.inr hu)))⟩
    | read =>
      simp only [readEffect] at h
      split at h
      · cases h
        exact .inl rfl
      · cases h
        exact .inr ⟨hr, .inr (.inr (.inr (.inl ⟨_, rfl⟩)))⟩
    | _ =>
      cases h
      exact .inl rfl

/-- `run()` makes a Ready or AwaitingInput engine Running and leaves any other (48_driver_commands.md R763). -/
theorem beginRun_cases (s : State) :
    (s.rs = .ready ∨ s.rs = .awaitingInput) ∧ beginRun s = { s with rs := .running } ∨ beginRun s = s := by
  unfold beginRun
  split <;> simp_all

theorem beginRun_inv {s : State} (h : s.Inv) : (beginRun s).Inv := by
  rcases beginRun_cases s with ⟨hr, hb⟩ | hb
  · obtain ⟨hcfg, hwf, hin, hprog, hext, hpc, hfc, -⟩ := h
    have hnone : s.fc = none := hfc.mpr (by rcases hr with hr | hr <;> simp [hr])
    rw [hb]
    exact ⟨hcfg, hwf, hin, hprog, hext, hpc, by simp [hnone], by simp⟩
  · rwa [hb]

theorem command_keeps_inv {n : Nat} {c : Command} {s t : State} {r : Response} (hinv : s.Inv)
    (h : issueWithin n c s = some (r, t)) : t.Inv := by
  have ⟨hcfg, hwf, hin, hprog, hext, hpc, hfc, hwait⟩ := hinv
  rcases issueWithin_state h with rfl | ⟨-, rfl | ⟨P, hP, rfl⟩ | ⟨v, rfl⟩ | ⟨q, rfl⟩ | hrun⟩
  · exact hinv
  · exact resetEffect_inv hcfg (hprog.trans hext)
  · exact resetEffect_inv hcfg hP
  · exact ⟨hcfg, hwf, hin, hprog, hext, hpc, hfc, hwait⟩
  · exact ⟨hcfg, hwf, hin, hprog, hext, hpc, hfc, hwait⟩
  · exact (runLoop_returns stepKeepsTheInvariant hrun (beginRun_inv hinv)).1

/-- No command that returns leaves the engine Running (48_driver_commands.md R750). -/
theorem command_not_running {n : Nat} {c : Command} {s t : State} {r : Response} (hr : s.rs ≠ .running)
    (h : issueWithin n c s = some (r, t)) : t.rs ≠ .running := by
  rcases issueWithin_state h with rfl | ⟨-, rfl | ⟨P, -, rfl⟩ | ⟨v, rfl⟩ | ⟨q, rfl⟩ | hrun⟩
  · exact hr
  · simp [resetEffect]
  · simp [resetEffect]
  · exact hr
  · exact hr
  · exact (runLoop_returns (P := fun _ => True) (fun _ _ _ _ => trivial) hrun trivial).2

theorem reachable_inv {cfg : Config} {s : State} (hc : cfg.Legal) (h : Reachable cfg s) : s.Inv := by
  induction h with
  | powerOn => exact powerOnSatisfiesTheInvariant.1 cfg hc
  | command n c s r t _ hi ih => exact command_keeps_inv ih hi
  | runBegins s _ ih => exact beginRun_inv ih
  | steps s t _ hs ih => exact stepKeepsTheInvariant s t ih hs

/-- The engine is Running only in the states that the steps of a run issued in Ready or AwaitingInput pass through
(10_state.md R115). -/
theorem reachable_running {cfg : Config} {s : State} (h : Reachable cfg s) (hr : s.rs = .running) :
    ∃ (s0 : State) (k : Nat), Reachable cfg s0 ∧ (s0.rs = .ready ∨ s0.rs = .awaitingInput) ∧
      Sys2Proof.core.run k { s0 with rs := .running } = .next s := by
  induction h with
  | powerOn => cases hr
  | command n c s r t _ hi ih =>
    by_cases hs : s.rs = .running
    · have hbusy : issueWithin n c s = some (.refused, s) := if_pos hs
      rw [hbusy] at hi
      cases hi
      exact ih hr
    · exact absurd hr (command_not_running hs hi)
  | runBegins s hreach ih =>
    rcases beginRun_cases s with ⟨hready, hb⟩ | hb
    · exact ⟨s, 0, hreach, hready, by rw [hb]; rfl⟩
    · rw [hb] at hr ⊢
      exact ih hr
  | steps s t _ hs ih =>
    rcases step_cases hs with ⟨-, rfl⟩ | ⟨hrun, -⟩ | ⟨hrun, -⟩
    · exact ih hr
    all_goals
      obtain ⟨s0, k, hreach, hready, hk⟩ := ih hrun
      exact ⟨s0, k + 1, hreach, hready, core_run_snoc hk hs⟩

theorem exists_inp_of_atIn {s : State} (h : atIn s = true) :
    ∃ hd, decodeWord (s.mem.cell s.pc) = .ok hd ∧ hd.op = .inp := by
  unfold atIn at h
  split at h
  · rename_i hd hdec
    exact ⟨hd, hdec, of_decide_eq_true h⟩
  · cases h

/-- Settles O46: power-on meets the invariant, and commands, the begin of a run and steps keep it. -/
theorem reachableStatesMeetTheInvariants : Obligations.ReachableStatesMeetTheInvariants := by
  intro cfg s hc h
  have hinv := reachable_inv hc h
  have ⟨_, _, hin, hprog, _, _, hfc, hwait⟩ := hinv
  exact ⟨hprog, fun a ha => Memory.cell_beyond hin ha, Nat.zero_le _, hfc, reachable_running h,
    fun hr => exists_inp_of_atIn (hwait hr).1, hinv⟩

/-! ### The extent is invisible -/

/-- Two attempts that end alike in states that differ at most in the extent. -/
inductive Attempt.Alike {α : Type} : Attempt α → Attempt α → Prop
  | ok (v : α) {s t : State} (h : sameButExt s t) : Alike (.ok v s) (.ok v t)
  | raised (c : Cause) {s t : State} (h : sameButExt s t) : Alike (.raised c s) (.raised c t)

/-- What does not read the extent is equal in states that differ in it alone. -/
theorem eq_of_sameButExt {α : Type} {s t : State} (f : State → α) (hf : ∀ u : State, f { u with ext := 0 } = f u)
    (h : sameButExt s t) : f s = f t :=
  (hf s).symm.trans ((congrArg f h).trans (hf t))

/-- Attempts that are alike stay so in sequence. -/
theorem Attempt.Alike.bind {α β : Type} {x y : Attempt α} {k : α → State → Attempt β} (h : x.Alike y)
    (hk : ∀ v s t, sameButExt s t → (k v s).Alike (k v t)) : (x.bind k).Alike (y.bind k) := by
  cases h with
  | ok v h => exact hk v _ _ h
  | raised c h => exact .raised c h

theorem Attempt.Alike.finish {x y : Attempt Unit} (h : x.Alike y) : Outcome.sameButExt x.finish y.finish := by
  cases h with
  | ok v h => exact h
  | raised c h => exact congrArg (State.takeFault · c) h

theorem Attempt.Alike.dispatch {x y : Attempt Instr} {body : Instr → State → Host.Outcome State Fault Refusal}
    (h : x.Alike y) (hb : ∀ i s t, sameButExt s t → Outcome.sameButExt (body i s) (body i t)) :
    Outcome.sameButExt (x.dispatch body) (y.dispatch body) := by
  cases h with
  | ok i h => exact hb i _ _ h
  | raised c h => exact congrArg (State.takeFault · c) h

section
variable {s t : State}

theorem rs_sameButExt (h : sameButExt s t) : s.rs = t.rs := eq_of_sameButExt State.rs (fun _ => rfl) h

theorem pc_sameButExt (h : sameButExt s t) : s.pc = t.pc := eq_of_sameButExt State.pc (fun _ => rfl) h

theorem addressFault_sameButExt (a : Int) (h : sameButExt s t) : s.addressFault a = t.addressFault a :=
  eq_of_sameButExt (State.addressFault · a) (fun _ => rfl) h

theorem memRead_alike (a : Int) (h : sameButExt s t) : (memRead a s).Alike (memRead a t) := by
  have hmem : s.mem = t.mem := eq_of_sameButExt State.mem (fun _ => rfl) h
  unfold memRead
  rw [addressFault_sameButExt a h, hmem]
  cases t.addressFault a with
  | some c => exact .raised c h
  | none => exact .ok _ h

theorem memWrite_alike (a : Int) (v : Word) (h : sameButExt s t) : (memWrite a v s).Alike (memWrite a v t) := by
  unfold memWrite
  rw [addressFault_sameButExt a h]
  cases t.addressFault a with
  | some c => exact .raised c h
  | none => exact .ok _ (congrArg (fun u : State => u.putCell a.toNat v) h)

theorem effAddr_sameButExt (o : Operand) (h : sameButExt s t) : effAddr o s = effAddr o t :=
  eq_of_sameButExt (effAddr o) (fun _ => rfl) h

theorem readOp_alike (o : Operand) (h : sameButExt s t) : (readOp o s).Alike (readOp o t) := by
  unfold readOp
  rw [effAddr_sameButExt o h]
  cases effAddr o t with
  | none => exact .ok _ h
  | some a => exact memRead_alike a h

theorem writeOp_alike (o : Operand) (v : Word) (h : sameButExt s t) : (writeOp o v s).Alike (writeOp o v t) := by
  unfold writeOp
  rw [effAddr_sameButExt o h]
  cases effAddr o t with
  | none => exact .raised _ h
  | some a => exact memWrite_alike a v h

theorem requireDest_alike (o : Operand) (h : sameButExt s t) : (requireDest o s).Alike (requireDest o t) := by
  unfold requireDest
  split
  · exact .ok _ h
  · exact .raised _ h

theorem checked_alike (r : Int) (h : sameButExt s t) : (checked r s).Alike (checked r t) := by
  unfold checked
  split
  · exact .ok _ h
  · exact .raised _ h

theorem jumpTo_alike (w : Word) (h : sameButExt s t) : (jumpTo w s).Alike (jumpTo w t) := by
  unfold jumpTo
  split
  · exact .raised _ h
  · exact .ok _ (congrArg (State.retire · _) h)

/-- Two states alike that retire by the same advance stay alike. -/
theorem advance_alike (k : Nat) (h : sameButExt s t) :
    (Attempt.ok () (s.retire (s.pc + k))).Alike (.ok () (t.retire (t.pc + k))) :=
  .ok _ (congrArg (fun u : State => u.retire (u.pc + k)) h)

theorem threeOperand_alike {alu : Word → Word → State → Attempt Word}
    (halu : ∀ x y s t, sameButExt s t → (alu x y s).Alike (alu x y t)) (a b d : Operand) (h : sameButExt s t) :
    (threeOperand alu a b d s).Alike (threeOperand alu a b d t) :=
  (requireDest_alike d h).bind fun _ _ _ h =>
  (readOp_alike a h).bind fun x _ _ h =>
  (readOp_alike b h).bind fun y _ _ h =>
  (halu x y _ _ h).bind fun r _ _ h =>
  (writeOp_alike d r h).bind fun _ _ _ h => advance_alike 4 h

theorem execIn_sameButExt (d : Operand) (h : sameButExt s t) :
    Outcome.sameButExt (execIn d s) (execIn d t) := by
  refine Attempt.Alike.finish ((requireDest_alike d h).bind fun _ s t h => ?_)
  have hq : s.inQ = t.inQ := eq_of_sameButExt State.inQ (fun _ => rfl) h
  rw [hq]
  cases t.inQ with
  | nil => exact .ok _ (congrArg State.suspend h)
  | cons v q =>
    exact (writeOp_alike d v h).bind fun _ _ _ h =>
      .ok _ (congrArg (fun u : State => u.dequeueIn.retire (u.pc + 2)) h)

theorem execOut_sameButExt (a : Operand) (h : sameButExt s t) :
    Outcome.sameButExt (execOut a s) (execOut a t) :=
  ((readOp_alike a h).bind fun x _ _ h =>
    .ok _ (congrArg (fun u : State => (u.enqueueOut x).retire (u.pc + 2)) h)).finish

/-- Both jumps read two operands and go one of two ways on the value of the first. -/
theorem execJt_sameButExt (a b : Operand) (h : sameButExt s t) :
    Outcome.sameButExt (execJt a b s) (execJt a b t) := by
  refine Attempt.Alike.finish ((readOp_alike a h).bind fun x _ _ h => (readOp_alike b h).bind fun w _ _ h => ?_)
  split
  · exact jumpTo_alike w h
  · exact advance_alike 3 h

theorem execJf_sameButExt (a b : Operand) (h : sameButExt s t) :
    Outcome.sameButExt (execJf a b s) (execJf a b t) := by
  refine Attempt.Alike.finish ((readOp_alike a h).bind fun x _ _ h => (readOp_alike b h).bind fun w _ _ h => ?_)
  split
  · exact advance_alike 3 h
  · exact jumpTo_alike w h

theorem execSrel_sameButExt (a : Operand) (h : sameButExt s t) :
    Outcome.sameButExt (execSrel a s) (execSrel a t) := by
  refine Attempt.Alike.finish ((readOp_alike a h).bind fun x s t h => ?_)
  have hrb : s.rb = t.rb := eq_of_sameButExt State.rb (fun _ => rfl) h
  rw [hrb]
  exact (checked_alike _ h).bind fun r _ _ h =>
    .ok _ (congrArg (fun u : State => (u.setBase r).retire (u.pc + 2)) h)

/-- No body reads the extent (10_state.md R113). -/
theorem exec_sameButExt (i : Instr) (h : sameButExt s t) : Outcome.sameButExt (exec i s) (exec i t) := by
  cases i with
  | add a b d => exact (threeOperand_alike (alu := aluAdd) (fun _ _ _ _ h => checked_alike _ h) a b d h).finish
  | mul a b d => exact (threeOperand_alike (alu := aluMul) (fun _ _ _ _ h => checked_alike _ h) a b d h).finish
  | lt a b d => exact (threeOperand_alike (alu := aluLt) (fun _ _ _ _ h => .ok _ h) a b d h).finish
  | eq a b d => exact (threeOperand_alike (alu := aluEq) (fun _ _ _ _ h => .ok _ h) a b d h).finish
  | inp d => exact execIn_sameButExt d h
  | out a => exact execOut_sameButExt a h
  | jt a b => exact execJt_sameButExt a b h
  | jf a b => exact execJf_sameButExt a b h
  | srel a => exact execSrel_sameButExt a h
  | halt => exact congrArg State.halt h

theorem fetchParams_alike (n : Nat) (a : Int) (h : sameButExt s t) :
    (fetchParams n a s).Alike (fetchParams n a t) := by
  induction n generalizing a s t with
  | zero => exact .ok _ h
  | succ n ih =>
    exact (memRead_alike a h).bind fun p _ _ h => (ih (a + 1) h).bind fun ps _ _ h => .ok _ h

theorem fetchInstr_alike (h : sameButExt s t) : (fetchInstr s).Alike (fetchInstr t) := by
  unfold fetchInstr
  rw [pc_sameButExt h]
  refine (memRead_alike _ h).bind fun w s t h => ?_
  unfold fetchRest
  cases decodeWord w with
  | error e => exact .raised _ h
  | ok hd =>
    rw [pc_sameButExt h]
    exact (fetchParams_alike _ _ h).bind fun ps _ _ h => .ok _ h

/-- No step reads the extent (10_state.md R113). -/
theorem step_sameButExt (h : sameButExt s t) : Outcome.sameButExt (step s) (step t) := by
  unfold step
  rw [rs_sameButExt h]
  split
  · exact (fetchInstr_alike h).dispatch fun i _ _ h => exec_sameButExt i h
  · exact h

theorem beginRun_sameButExt (h : sameButExt s t) : sameButExt (beginRun s) (beginRun t) := by
  unfold beginRun
  rw [rs_sameButExt h]
  cases t.rs with
  | ready => exact congrArg (fun u : State => { u with rs := .running }) h
  | awaitingInput => exact congrArg (fun u : State => { u with rs := .running }) h
  | _ => exact h

/-- The loop of `run()` takes the same number of steps in both states. -/
theorem runLoop_sameButExt {n : Nat} {u : State} (h : sameButExt s t) (hu : runLoop n s = some u) :
    ∃ u', runLoop n t = some u' ∧ sameButExt u u' := by
  induction n generalizing s t with
  | zero =>
    by_cases hr : s.rs = .running
    · cases (runLoop_zero hr).symm.trans hu
    · cases (runLoop_idle hr).symm.trans hu
      exact ⟨t, runLoop_idle (rs_sameButExt h ▸ hr), h⟩
  | succ n ih =>
    by_cases hr : s.rs = .running
    · obtain ⟨s1, hs1⟩ := step_next s
      obtain ⟨t1, ht1⟩ := step_next t
      have h1 := step_sameButExt h
      rw [hs1, ht1] at h1
      rw [runLoop_succ hr hs1] at hu
      rw [runLoop_succ (rs_sameButExt h ▸ hr) ht1]
      exact ih h1 hu
    · cases (runLoop_idle hr).symm.trans hu
      exact ⟨t, runLoop_idle (rs_sameButExt h ▸ hr), h⟩

/-- A command whose response and effect do not read the extent: without it, the response is the same and the states left
differ at most in the extent. -/
def IgnoresExtent (f : State → Response × State) : Prop :=
  ∀ v : State, (f { v with ext := 0 }).1 = (f v).1 ∧ sameButExt (f { v with ext := 0 }).2 (f v).2

theorem loadEffect_ignoresExtent (P : List Word) : IgnoresExtent (loadEffect P) := by
  intro v
  unfold loadEffect
  split <;> exact ⟨rfl, rfl⟩

theorem readEffect_ignoresExtent : IgnoresExtent readEffect := by
  intro ⟨_, _, _, _, _, _, _, outQ, _, _⟩
  cases outQ <;> exact ⟨rfl, rfl⟩

theorem IgnoresExtent.answer {f : State → Response × State} (hf : IgnoresExtent f) (h : sameButExt s t)
    {r : Response} {u : State} (hu : some (f s) = some (r, u)) :
    ∃ u', some (f t) = some (r, u') ∧ sameButExt u u' := by
  obtain ⟨hs1, hs2⟩ := hf s
  obtain ⟨ht1, ht2⟩ := hf t
  rw [Option.some.inj hu] at hs1 hs2
  have h0 : ({ s with ext := 0 } : State) = { t with ext := 0 } := h
  rw [h0] at hs1 hs2
  exact ⟨(f t).2, congrArg some (Prod.ext (ht1.symm.trans hs1) rfl), hs2.symm.trans ht2⟩

/-- No command but the inspection of the extent reads it (10_state.md R113). -/
theorem issueWithin_sameButExt {n : Nat} {c : Command} {r : Response} {u : State} (hc : c ≠ .extent)
    (h : sameButExt s t) (hu : issueWithin n c s = some (r, u)) :
    ∃ u', issueWithin n c t = some (r, u') ∧ sameButExt u u' := by
  have hrs := rs_sameButExt h
  have query (f : State → Response) (hf : ∀ v : State, f { v with ext := 0 } = f v) :
      IgnoresExtent fun v => (f v, v) := fun v => ⟨hf v, rfl⟩
  unfold issueWithin at hu ⊢
  by_cases hr : s.rs = .running
  · rw [if_pos hr] at hu
    rw [if_pos (hrs ▸ hr)]
    exact (query (fun _ => .refused) fun _ => rfl).answer h hu
  · rw [if_neg hr] at hu
    rw [if_neg (hrs ▸ hr)]
    cases c with
    | load P => exact (loadEffect_ignoresExtent P).answer h hu
    | reset => exact IgnoresExtent.answer (f := fun v => (.done, resetEffect v)) (fun _ => ⟨rfl, rfl⟩) h hu
    | write v => exact IgnoresExtent.answer (f := fun u => (.done, writeEffect v u)) (fun _ => ⟨rfl, rfl⟩) h hu
    | run =>
      obtain ⟨v, hv, hvu⟩ := Option.map_eq_some_iff.mp hu
      obtain ⟨v', hv', h'⟩ := runLoop_sameButExt (beginRun_sameButExt h) hv
      rw [rs_sameButExt h'] at hvu
      cases hvu
      exact ⟨v', by simp [hv'], h'⟩
    | read => exact readEffect_ignoresExtent.answer h hu
    | extent => exact absurd rfl hc
    | canRead => exact (query (fun v => .flag (decide (v.outQ ≠ []))) fun _ => rfl).answer h hu
    | state => exact (query (fun v => .code v.rs.code) fun _ => rfl).answer h hu
    | peek a => exact (query (peekResponse a) fun _ => rfl).answer h hu
    | getPC => exact (query (fun v => .number v.pc) fun _ => rfl).answer h hu
    | getRB => exact (query (fun v => .word v.rb) fun _ => rfl).answer h hu
    | faultCause => exact (query (fun v => .code (causeCode v.fc)) fun _ => rfl).answer h hu
    | inCount => exact (query (fun v => .number v.inQ.length) fun _ => rfl).answer h hu

end

/-- Settles O47: no part of a step and no other command reads the extent. -/
theorem extentIsInvisible : Obligations.ExtentIsInvisible :=
  fun _ _ h => ⟨step_sameButExt h, fun _ _ _ _ hc hu => issueWithin_sameButExt hc h hu⟩

end Sys2Proof.Machine
end

section
/-! PROOFS. The statements of 20_memory.md: the access primitives case by case, the one cell a store changes, a read after
a write, growth of the extent, and the FIFO queues. -/

namespace Sys2Proof.Machine

/-! ### Stores and accesses -/

theorem Memory.cell_store {m : Memory} (h : m.wf = true) (a b : Nat) (v : Word) :
    (m.store a v).cell b = if b = a then v else m.cell b := by
  by_cases hb : b = a
  · rw [if_pos hb, hb, Memory.cell_store_same h]
  · rw [if_neg hb, Memory.cell_store_other m v hb]

/-- Settles O13: a canonical memory holds the value at the address and its old cells elsewhere, and stays canonical. -/
theorem storeChangesOneCell : Obligations.StoreChangesOneCell :=
  fun _ a b v h => ⟨Memory.cell_store h a b v, Memory.wf_store h a v⟩

/-- Settles O12: each case is one outcome of the address checks. -/
theorem memoryAccessPrimitives : Obligations.MemoryAccessPrimitives := by
  intro a v s
  refine ⟨fun hneg => ?_, fun h0 hcap => ?_, fun h0 hlt => ?_⟩
  · have hf := State.addressFault_neg (s := s) hneg
    exact ⟨memRead_raised hf, memWrite_raised hf⟩
  · have hf := State.addressFault_high h0 hcap
    exact ⟨memRead_raised hf, memWrite_raised hf⟩
  · have hf := State.addressFault_eq_none.mpr ⟨h0, hlt⟩
    exact ⟨memRead_ok hf, memWrite_ok hf⟩

/-- Growing the extent to an address it already covers changes nothing. -/
theorem State.grow_of_lt {s : State} {a : Nat} (h : a < s.ext) : s.grow a = s := by
  simp [State.grow, max_eq_left (Nat.succ_le_of_lt h)]

/-- Settles O15: the write leaves the extent above its address, so the read grows nothing and finds the value. -/
theorem readReturnsTheLatestWrite : Obligations.ReadReturnsTheLatestWrite := by
  intro a v s s' hwf hw
  obtain ⟨ha, rfl⟩ := memWrite_eq_ok.mp hw
  have hlt : a.toNat < ((s.grow a.toNat).putCell a.toNat v).ext := by simp
  rw [memRead_ok (by simpa using ha), State.grow_of_lt hlt]
  simp [Memory.cell_store hwf]

/-- Settles O16: both accesses leave `max ext (A + 1)`, and cells at or beyond the old extent hold 0. -/
theorem growthOfTheExtent : Obligations.GrowthOfTheExtent := by
  intro a v x s r w hwf hin hr hw
  obtain ⟨ha, rfl, rfl⟩ := memRead_eq_ok.mp hr
  obtain ⟨-, rfl⟩ := memWrite_eq_ok.mp hw
  obtain ⟨h0, -⟩ := State.addressFault_eq_none.mp ha
  simp only [State.grow_ext, State.putCell_ext, State.grow_mem, State.putCell_mem, Memory.cell_store hwf, if_true,
    true_and, and_true]
  refine ⟨fun hge => ⟨by omega, by omega, Memory.cell_beyond hin (by omega), fun b hb hba => ?_⟩,
    fun hlt => ⟨by omega, by omega⟩⟩
  have hne : b ≠ a.toNat := by omega
  have hzero := Memory.cell_beyond hin hb
  exact ⟨hzero, by rw [if_neg hne, hzero]⟩

/-! ### The queues -/

namespace BodyEffect
variable {s t : State} {i : Instr}

/-- A body removes the oldest input or none. -/
theorem inQ_eq_or_cons (h : BodyEffect s i t) : t.inQ = s.inQ ∨ ∃ v, s.inQ = v :: t.inQ := by
  cases h with
  | fault _ hf => obtain ⟨c, n, -, rfl⟩ := hf; exact .inl rfl
  | consume hq he ha hn hlt => exact .inr ⟨_, hq⟩
  | _ => exact .inl rfl

/-- A body appends one output or none. -/
theorem outQ_eq_or_append (h : BodyEffect s i t) : t.outQ = s.outQ ∨ ∃ v, t.outQ = s.outQ ++ [v] := by
  cases h with
  | fault _ hf => obtain ⟨c, n, -, rfl⟩ := hf; exact .inl rfl
  | emit a v hn => exact .inr ⟨v, rfl⟩
  | _ => exact .inl rfl

/-- No body uses both queues, since IN is not OUT. -/
theorem inQ_eq_or_outQ_eq (h : BodyEffect s i t) : t.inQ = s.inQ ∨ t.outQ = s.outQ := by
  rcases h.inQ_eq_or_inp with hin | ⟨d, rfl⟩
  · exact .inl hin
  · exact .inr (h.outQ_eq_or_out.resolve_right nofun)

end BodyEffect

/-- Settles O42: only a body touches the queues, and the fetch before it leaves them. -/
theorem queuesAreFifo : Obligations.QueuesAreFifo := by
  intro s t h
  rcases step_cases h with ⟨-, rfl⟩ | ⟨-, -, c, n, -, rfl⟩ | ⟨-, i, s1, hf, hb⟩
  · exact ⟨.inl rfl, .inl rfl, .inl rfl⟩
  · exact ⟨.inl rfl, .inl rfl, .inl rfl⟩
  · obtain ⟨n, -, -, rfl⟩ := fetchInstr_ok_grown hf
    exact ⟨hb.inQ_eq_or_cons, hb.outQ_eq_or_append, hb.inQ_eq_or_outQ_eq⟩

end Sys2Proof.Machine
end

section
/-! PROOFS. The statements of 30_encoding.md: the decoder accepts exactly the words of legal headers, decoding and
encoding are inverse to each other, the listed legal words, illegal words, and the pseudo-instructions. -/

namespace Sys2Proof

/-! ### Headers and their words -/

/-- Slot `k` may have mode `m`: an unused slot is Position and a destination is not Immediate (30_encoding.md R307). -/
abbrev SlotLegal (op : Opcode) (k : Nat) (m : Mode) : Prop :=
  (op.nops < k → m = .position) ∧ (op.dstSlot = some k → m ≠ .immediate)

/-- Every slot of the header passes the checks of 30_encoding.md R307. -/
abbrev Header.Legal (h : Header) : Prop :=
  SlotLegal h.op 1 h.m1 ∧ SlotLegal h.op 2 h.m2 ∧ SlotLegal h.op 3 h.m3

/-- The word with the header's fields as its digits (30_encoding.md R303). -/
abbrev Header.word (h : Header) : Word := wordOf h.op h.m1 h.m2 h.m3

/-- An opcode uses its destination slot (30_encoding.md R300). -/
theorem Opcode.dstSlot_le_nops {op : Opcode} {k : Nat} (h : op.dstSlot = some k) : k ≤ op.nops := by
  cases op <;> simp_all [Opcode.dstSlot, Opcode.nops]

/-- The decoder accepts a slot exactly when the digit names a legal mode. -/
theorem slotMode_eq_ok_iff_legal {op : Opcode} {k d : Nat} {m : Mode} :
    slotMode op k d = .ok m ↔ d = m.digit ∧ SlotLegal op k m := by
  rw [slotMode_eq_ok]
  refine and_congr_right fun hd => and_congr ?_ (forall_congr' fun hk => ?_)
  · rw [hd, Mode.digit_eq_zero]
  · exact or_iff_right (by have := Opcode.dstSlot_le_nops hk; omega)

/-- `Decode(w)` succeeds exactly when each of its checks does (30_encoding.md R305). -/
theorem decodeWord_eq_ok {w : Word} {h : Header} :
    decodeWord w = .ok h ↔
      0 ≤ w.toInt ∧ low2 w.toInt.toNat = h.op.number ∧ w.toInt.toNat / 100000 = 0 ∧
      slotMode h.op 1 (digit w.toInt.toNat 2) = .ok h.m1 ∧
      slotMode h.op 2 (digit w.toInt.toNat 3) = .ok h.m2 ∧
      slotMode h.op 3 (digit w.toInt.toNat 4) = .ok h.m3 := by
  obtain ⟨op, m1, m2, m3⟩ := h
  unfold decodeWord
  by_cases hneg : w.toInt < 0
  · simp [hneg]
  rw [if_neg hneg, ← opcodeOf_eq_some]
  cases hop : opcodeOf (low2 w.toInt.toNat) with
  | none => simp
  | some op' =>
    by_cases hhigh : w.toInt.toNat / 100000 = 0
    · simp only [hhigh, not_lt.mp hneg, ne_eq, not_true_eq_false, if_false, true_and, Option.some.injEq]
      constructor
      · intro hok
        split at hok <;> cases hok
        exact ⟨rfl, ‹_›, ‹_›, ‹_›⟩
      · rintro ⟨rfl, h1, h2, h3⟩
        simp only [h1, h2, h3]
    · simp [hhigh]

/-- A word is the word of a header exactly when it is not negative, its digits are the header's fields and it has no
digit above them (30_encoding.md R303). -/
theorem eq_word_iff_digits {w : Word} {h : Header} :
    w = h.word ↔
      0 ≤ w.toInt ∧ w.toInt % 100 = h.op.number ∧ w.toInt / 100000 = 0 ∧
      w.toInt / 100 % 10 = h.m1.digit ∧ w.toInt / 1000 % 10 = h.m2.digit ∧ w.toInt / 10000 % 10 = h.m3.digit := by
  have hop := h.op.number_le
  have h1 := h.m1.digit_le
  have h2 := h.m2.digit_le
  have h3 := h.m3.digit_le
  rw [← BitVec.toInt_inj, toInt_wordOf]
  constructor
  · intro hw
    refine ⟨?_, ?_, ?_, ?_, ?_, ?_⟩ <;> omega
  · rintro ⟨h0, hd0, hhigh, hd1, hd2, hd3⟩
    omega

/-- The words that decode are the words of legal headers (30_encoding.md R305). -/
theorem decodeWord_eq_ok_iff_word {w : Word} {h : Header} : decodeWord w = .ok h ↔ h.Legal ∧ w = h.word := by
  rw [decodeWord_eq_ok, eq_word_iff_digits]
  simp only [slotMode_eq_ok_iff_legal, low2, digit, Nat.reducePow]
  constructor
  · rintro ⟨h0, hop, hhigh, ⟨hd1, hl1⟩, ⟨hd2, hl2⟩, ⟨hd3, hl3⟩⟩
    rw [← Int.toNat_of_nonneg h0]
    exact ⟨⟨hl1, hl2, hl3⟩, by norm_cast; exact ⟨Nat.zero_le _, hop, hhigh, hd1, hd2, hd3⟩⟩
  · rintro ⟨⟨hl1, hl2, hl3⟩, h0, hdigits⟩
    rw [← Int.toNat_of_nonneg h0] at hdigits
    norm_cast at hdigits
    obtain ⟨hop, hhigh, hd1, hd2, hd3⟩ := hdigits
    exact ⟨h0, hop, hhigh, ⟨hd1, hl1⟩, ⟨hd2, hl2⟩, ⟨hd3, hl3⟩⟩

/-- Settles O3: the digits fix the word of the header, and the checks on the slots are its legality. -/
theorem decoderFollowsTheDigitChecks : Obligations.DecoderFollowsTheDigitChecks := by
  intro w h
  rw [decodeWord_eq_ok_iff_word, eq_word_iff_digits]
  simp only [ne_eq, Mode.digit_eq_zero, Mode.digit_eq_one]
  tauto

/-! ### Instructions and their headers -/

/-- The fields of the instruction word of an instruction (30_encoding.md R303). -/
abbrev Instr.header (i : Instr) : Header :=
  ⟨i.opcode, slotModeOf i.operands 0, slotModeOf i.operands 1, slotModeOf i.operands 2⟩

theorem Operand.isDest_iff {o : Operand} : o.isDest = true ↔ o.mode ≠ .immediate := by
  obtain ⟨m, p⟩ := o
  cases m <;> simp [Operand.isDest]

/-- The well-formed instructions are those with a legal header. -/
theorem Instr.wellFormed_iff_legal (i : Instr) : i.wellFormed = true ↔ i.header.Legal := by
  cases i <;>
    simp [Header.Legal, SlotLegal, Instr.wellFormed, Instr.dest?, Operand.isDest_iff, Instr.opcode, Instr.operands,
      slotModeOf, Opcode.nops, Opcode.dstSlot]

/-- An instruction is its header and its raw parameters. -/
theorem Instr.header_instr_raw (i : Instr) : i.header.instr (i.operands.map Operand.raw) = i := by
  cases i <;> rfl

/-- A legal header is the header of the instruction it gives, since its unused slots are Position. -/
theorem Header.header_instr {h : Header} (hl : h.Legal) (ps : List Word) : (h.instr ps).header = h := by
  obtain ⟨op, m1, m2, m3⟩ := h
  obtain ⟨⟨hm1, -⟩, ⟨hm2, -⟩, ⟨hm3, -⟩⟩ := hl
  cases op <;> simp_all [Header.instr, Instr.opcode, Instr.operands, slotModeOf, Opcode.nops]

/-- The parameters an instruction is built from are its raw parameters, when they are as many as its operands. -/
theorem Header.raw_instr {h : Header} {ps : List Word} (hlen : ps.length = h.op.nops) :
    (h.instr ps).operands.map Operand.raw = ps := by
  have hraw : (h.instr ps).operands.map Operand.raw = (List.range h.op.nops).map fun k => ps.getD k 0#64 := by
    obtain ⟨op, m1, m2, m3⟩ := h
    cases op <;> rfl
  rw [hraw]
  exact List.ext_getElem (by simp [hlen]) fun k _ hk => by simp [hk]

/-- A list of cells decodes exactly when it is a word that decodes, as many parameters as its opcode has, and the rest
(30_encoding.md R301, R302). -/
theorem decode_eq_ok {cells : List Word} {i : Instr} {rest : List Word} :
    decode cells = .ok (i, rest) ↔
      ∃ w h ps, decodeWord w = .ok h ∧ ps.length = h.op.nops ∧ cells = w :: (ps ++ rest) ∧ i = h.instr ps := by
  constructor
  · intro hdec
    cases cells with
    | nil => cases hdec
    | cons w cells =>
      cases hw : decodeWord w with
      | error e => simp [decode, hw] at hdec
      | ok h =>
        by_cases hlen : cells.length < h.op.nops
        · simp [decode, hw, hlen] at hdec
        · simp only [decode, hw, hlen, if_false, Except.ok.injEq, Prod.mk.injEq] at hdec
          obtain ⟨rfl, rfl⟩ := hdec
          exact ⟨w, h, cells.take h.op.nops, hw, by simp; omega, by simp, rfl⟩
  · rintro ⟨w, h, ps, hw, hlen, rfl, rfl⟩
    simp [decode, hw, ← hlen]

/-- Settles O1: the word of a well-formed instruction decodes to its header, which with the raw parameters is it. -/
theorem decodeOfEncodeIsIdentity : Obligations.DecodeOfEncodeIsIdentity := by
  intro i rest hwf
  have hw : decodeWord i.header.word = .ok i.header :=
    decodeWord_eq_ok_iff_word.mpr ⟨i.wellFormed_iff_legal.mp hwf, rfl⟩
  have hlen : (i.operands.map Operand.raw).length = i.opcode.nops := by rw [List.length_map, length_operands]
  exact decode_eq_ok.mpr ⟨_, _, _, hw, hlen, rfl, i.header_instr_raw.symm⟩

/-- Settles O2: the word read is that of a legal header, which is the header of the instruction read. -/
theorem decodedCellsAreTheEncoding : Obligations.DecodedCellsAreTheEncoding := by
  intro cells i rest hdec
  obtain ⟨w, h, ps, hw, hlen, rfl, rfl⟩ := decode_eq_ok.mp hdec
  obtain ⟨hl, rfl⟩ := decodeWord_eq_ok_iff_word.mp hw
  have hheader := Header.header_instr hl ps
  refine ⟨(Instr.wellFormed_iff_legal _).mpr (hheader.symm ▸ hl), ?_⟩
  calc h.word :: (ps ++ rest)
      = (h.instr ps).header.word :: ((h.instr ps).operands.map Operand.raw ++ rest) := by
        rw [hheader, Header.raw_instr hlen]
    _ = encode (h.instr ps) ++ rest := rfl

/-- Cells that are the encoding of a well-formed instruction decode to it. -/
theorem decode_of_eq_encode {cells : List Word} {i : Instr} (hwf : i.wellFormed = true) (h : cells = encode i) :
    decode cells = .ok (i, []) := by
  rw [h, ← List.append_nil (encode i)]
  exact decodeOfEncodeIsIdentity i [] hwf

/-- Settles O5: each list is the encoding of the well-formed instruction beside it. -/
theorem writtenOutCellsDecode : Obligations.WrittenOutCellsDecode :=
  ⟨decode_of_eq_encode rfl rfl, decode_of_eq_encode rfl rfl, decode_of_eq_encode rfl rfl, decode_of_eq_encode rfl rfl,
    decode_of_eq_encode rfl rfl, decode_of_eq_encode rfl rfl, decode_of_eq_encode rfl rfl⟩

/-! ### The legal words -/

/-- The three modes (30_encoding.md R304). -/
def modes : List Mode := [.position, .immediate, .relative]

theorem mem_modes (m : Mode) : m ∈ modes := by cases m <;> decide

/-- Each listed word is the word of a legal header. -/
theorem exists_legal_of_mem_legalWords {op : Opcode} {v : Int} (hv : v ∈ Machine.legalWords op) :
    ∃ h : Header, h.Legal ∧ h.op = op ∧ v = h.word.toInt := by
  have listed : ∀ v ∈ Machine.legalWords op, ∃ m1 ∈ modes, ∃ m2 ∈ modes, ∃ m3 ∈ modes,
      Header.Legal ⟨op, m1, m2, m3⟩ ∧ v = (Header.word ⟨op, m1, m2, m3⟩).toInt := by
    cases op <;> decide
  obtain ⟨m1, -, m2, -, m3, -, hl, rfl⟩ := listed v hv
  exact ⟨_, hl, rfl, rfl⟩

/-- The word of each legal header is listed. -/
theorem word_mem_legalWords {h : Header} (hl : h.Legal) : h.word.toInt ∈ Machine.legalWords h.op := by
  have listed : ∀ op : Opcode, ∀ m1 ∈ modes, ∀ m2 ∈ modes, ∀ m3 ∈ modes, Header.Legal ⟨op, m1, m2, m3⟩ →
      (Header.word ⟨op, m1, m2, m3⟩).toInt ∈ Machine.legalWords op := by
    intro op
    cases op <;> decide
  exact listed h.op h.m1 (mem_modes _) h.m2 (mem_modes _) h.m3 (mem_modes _) hl

/-- Settles O4: the words that decode are those of legal headers, which are the listed ones. -/
theorem legalWordsAreTheListed99 : Obligations.LegalWordsAreTheListed99 := by
  refine ⟨fun w op => ⟨?_, fun hw => ?_⟩, rfl⟩
  · rintro ⟨h, hdec, rfl⟩
    obtain ⟨hl, rfl⟩ := decodeWord_eq_ok_iff_word.mp hdec
    exact word_mem_legalWords hl
  · obtain ⟨h, hl, hop, hv⟩ := exists_legal_of_mem_legalWords hw
    exact ⟨h, decodeWord_eq_ok_iff_word.mpr ⟨hl, BitVec.toInt_inj.mp hv⟩, hop⟩

end Sys2Proof

namespace Sys2Proof.Machine

/-! ### The fault of an illegal word -/

/-- The low two digits of a word that decodes are an opcode (30_encoding.md R306). -/
theorem low_digits_mem_of_decodeWord {w : Word} {h : Header} (hdec : decodeWord w = .ok h) :
    w.toInt % 100 ∈ ([1, 2, 3, 4, 5, 6, 7, 8, 9, 99] : List Int) := by
  obtain ⟨-, hop, -⟩ := (decoderFollowsTheDigitChecks w h).mp hdec
  rw [hop]
  cases h.op <;> decide

/-- Settles O6: the fetch raises the fault in the state grown over the word, and a Faulted engine takes no step. -/
theorem illegalWordFaultsBeforeItsParameters : Obligations.IllegalWordFaultsBeforeItsParameters := by
  intro s hr hpc
  refine ⟨fun hlow => ?_, fun ⟨e, he⟩ => ⟨?_, step_idle (by simp)⟩⟩
  · cases hdec : decodeWord (s.mem.cell s.pc) with
    | error e => exact ⟨e, rfl⟩
    | ok h => exact absurd (low_digits_mem_of_decodeWord hdec) hlow
  · calc step s = (fetchInstr s).dispatch exec := if_pos hr
      _ = .next ((s.grow s.pc).takeFault .illegalInstruction) := by rw [fetchInstr_illegal hpc he]; rfl

/-! ### Pseudo-instructions -/

/-- JT on Immediate operands reads no cell (43_jumps.md R550). -/
theorem execJt_immediate (a t : Word) (s : State) :
    execJt ⟨.immediate, a⟩ ⟨.immediate, t⟩ s = (if aluNz a then jumpTo t s else .ok () (s.retire (s.pc + 3))).finish :=
  rfl

/-- JF on Immediate operands reads no cell (43_jumps.md R560). -/
theorem execJf_immediate (a t : Word) (s : State) :
    execJf ⟨.immediate, a⟩ ⟨.immediate, t⟩ s = (if aluNz a then .ok () (s.retire (s.pc + 3)) else jumpTo t s).finish :=
  rfl

theorem jumpTo_ok {t : Word} (h : 0 ≤ t.toInt) (s : State) : jumpTo t s = .ok () (s.retire t.toInt.toNat) :=
  if_neg (not_lt.mpr h)

/-- Settles O7: the expansions are encoded as listed, `JT #1` jumps always and `JF #1` never. -/
theorem pseudoInstructionsExpand : Obligations.PseudoInstructionsExpand := by
  have hone : aluNz 1#64 = true := by decide
  refine ⟨fun _ => rfl, fun _ _ => rfl, rfl, fun s => ?_, fun n s hn => ?_⟩
  · calc exec pseudoNop s = execJf ⟨.immediate, 1#64⟩ ⟨.immediate, 0#64⟩ s := rfl
      _ = .next (s.retire (s.pc + 3)) := by rw [execJf_immediate, if_pos hone, Attempt.finish_ok]
  · calc exec (pseudoJmp ⟨.immediate, n⟩) s = execJt ⟨.immediate, 1#64⟩ ⟨.immediate, n⟩ s := rfl
      _ = .next (s.retire n.toInt.toNat) := by rw [execJt_immediate, if_pos hone, jumpTo_ok hn, Attempt.finish_ok]

end Sys2Proof.Machine
end

section
/-! PROOFS. The statements of 40_engine.md: the step as a fetch and a body, the faults of the fetch, operands by mode,
the agreement of encodings with the same operands, and the sequential advance. -/

namespace Sys2Proof.Machine

/-! ### Fetch and step -/

/-- A Running engine whose fetch goes on runs the body of the fetched instruction (40_engine.md R410). -/
theorem step_of_fetch_ok {s s1 : State} {i : Instr} (hr : s.rs = .running) (hf : fetchInstr s = .ok i s1) :
    step s = exec i s1 := by
  rw [step, if_pos hr, hf, Attempt.dispatch]

/-- A Running engine whose fetch raises takes the fault (60_exceptions.md R801). -/
theorem step_of_fetch_raised {s s1 : State} {c : Cause} (hr : s.rs = .running) (hf : fetchInstr s = .raised c s1) :
    step s = .next (s1.takeFault c) := by
  rw [step, if_pos hr, hf, Attempt.dispatch]

/-- Cells of memory that decode to an instruction are a legal word and its parameters (30_encoding.md R301). -/
theorem decodeWord_of_decode_cellsFrom {m : Memory} {a : Nat} {i : Instr}
    (h : decode (m.cellsFrom a i.length) = .ok (i, [])) :
    ∃ hd, decodeWord (m.cell a) = .ok hd ∧ i.opcode = hd.op ∧ hd.instr (m.cellsFrom (a + 1) hd.op.nops) = i := by
  obtain ⟨w, hd, ps, hw, -, hcells, hi⟩ := decode_eq_ok.mp h
  have hop : i.opcode = hd.op := hi ▸ opcode_instr hd ps
  rw [Instr.length, Nat.add_comm, cellsFrom_succ, List.append_nil, List.cons.injEq, hop] at hcells
  obtain ⟨hcell, hps⟩ := hcells
  exact ⟨hd, hcell ▸ hw, hop, hps ▸ hi.symm⟩

/-- Settles O8: the fetch reads the word and parameters that decode, and grows the extent over them. -/
theorem stepRunsTheDecodedInstruction : Obligations.StepRunsTheDecodedInstruction := by
  intro s i hr hdec hcap
  obtain ⟨hd, hw, hop, hi⟩ := decodeWord_of_decode_cellsFrom hdec
  have hend : s.pc + i.length = s.pc + 1 + hd.op.nops := by rw [Instr.length, hop, Nat.add_assoc]
  rw [hend] at hcap ⊢
  rw [step_of_fetch_ok hr (fetchInstr_legal hw hcap), hi]

/-- Settles O9: only a Running engine fetches. -/
theorem idleEngineTakesNoStep : Obligations.IdleEngineTakesNoStep :=
  fun _ hr => step_idle hr

/-- The word 0 is illegal: its low two digits are no opcode (30_encoding.md R306). -/
theorem decodeWord_zero : decodeWord 0#64 = .error .unknownOpcode := by decide

/-- Settles O10: a fetch at the capacity grows nothing, and a cell beyond the extent holds the illegal word 0. -/
theorem wordFetchBeyondTheProgramFaults : Obligations.WordFetchBeyondTheProgramFaults := by
  intro s hr
  refine ⟨fun hcap => step_of_fetch_raised hr (fetchInstr_beyond hcap), fun hin hext hcap => ?_⟩
  have hcell : s.mem.cell s.pc = 0#64 := Memory.cell_beyond hin hext
  have hill : decodeWord (s.mem.cell s.pc) = .error .unknownOpcode := hcell ▸ decodeWord_zero
  have hgrow : max s.ext (s.pc + 1) = s.pc + 1 := max_eq_right (by omega)
  rw [step_of_fetch_raised hr (fetchInstr_illegal hcap hill), State.grow, State.takeFault, hgrow]

/-- Settles O11: the parameters below the capacity are fetched, the first one at it raises. -/
theorem parameterFetchBeyondCapacityFaults : Obligations.ParameterFetchBeyondCapacityFaults :=
  fun _ _ hr hdec hpc hcap => step_of_fetch_raised hr (fetchInstr_legal_beyond hpc hdec hcap)

/-! ### Operands by mode -/

/-- Settles O18: the effective address of each mode is what `ReadOp` reads. -/
theorem operandReadByMode : Obligations.OperandReadByMode :=
  fun _ _ => ⟨rfl, rfl, rfl⟩

/-- Everything a read of an operand that goes on has done. -/
theorem readOp_eq_ok {o : Operand} {s t : State} {v : Word} (h : readOp o s = .ok v t) :
    operandFault o s = none ∧ v = operandValue o s ∧ t = afterRead o s := by
  cases hf : operandFault o s with
  | some c => cases (readOp_raised hf).symm.trans h
  | none =>
    cases (readOp_ok hf).symm.trans h
    exact ⟨rfl, rfl, rfl⟩

/-- Settles O19: a read grows the extent at most, and effective addresses do not depend on it. -/
theorem effectiveAddressByMode : Obligations.EffectiveAddressByMode := by
  intro p s
  refine ⟨rfl, rfl, rfl, fun o d v s' h => ?_⟩
  obtain ⟨-, -, rfl⟩ := readOp_eq_ok h
  exact effAddr_afterRead o d s

/-- The destination of a well-formed instruction is Position or Relative (40_engine.md R405). -/
theorem mode_ne_immediate_of_wellFormed {i : Instr} {d : Operand} (hwf : i.wellFormed = true)
    (hd : i.dest? = some d) : d.mode ≠ .immediate := by
  rw [Instr.wellFormed, hd] at hwf
  exact Operand.isDest_iff.mp hwf

/-- Settles O20: both writing modes have an effective address, and only well-formed instructions are decoded. -/
theorem resultWriteGoesToTheEffectiveAddress : Obligations.ResultWriteGoesToTheEffectiveAddress := by
  refine ⟨fun p v s => ⟨writeOp_of_effAddr rfl, writeOp_of_effAddr rfl⟩, fun cells rest i d hdec hd => ?_⟩
  obtain ⟨hwf, -⟩ := decodedCellsAreTheEncoding cells i rest hdec
  exact mode_ne_immediate_of_wellFormed hwf hd

/-! ### Encodings with the same operands -/

/-- Two parts of an attempt that end alike and have changed at most the extent of `u`. -/
inductive Attempt.AlikeFrom (u : State) {α : Type} : Attempt α → Attempt α → Prop
  | ok (v : α) {s t : State} (hs : sameButExt u s) (ht : sameButExt u t) : AlikeFrom u (.ok v s) (.ok v t)
  | raised (c : Cause) {s t : State} (hs : sameButExt u s) (ht : sameButExt u t) :
    AlikeFrom u (.raised c s) (.raised c t)

/-- Parts alike from `u` go on to what may use that `u` is unchanged but for the extent. -/
theorem Attempt.AlikeFrom.bind {u : State} {α β : Type} {x y : Attempt α} {k k' : α → State → Attempt β}
    (h : x.AlikeFrom u y)
    (hk : ∀ v s t, sameButExt u s → sameButExt u t → (k v s).Alike (k' v t)) : (x.bind k).Alike (y.bind k') := by
  cases h with
  | ok v hs ht => exact hk v _ _ hs ht
  | raised c hs ht => exact .raised c (hs.symm.trans ht)

theorem afterRead_sameButExt (o : Operand) (s : State) : sameButExt s (afterRead o s) := by
  rw [afterRead_eq o s]

section
variable {u s t : State}

theorem operandFault_sameButExt (o : Operand) (h : sameButExt s t) : operandFault o s = operandFault o t :=
  eq_of_sameButExt (operandFault o) (fun _ => rfl) h

theorem operandValue_sameButExt (o : Operand) (h : sameButExt s t) : operandValue o s = operandValue o t :=
  eq_of_sameButExt (operandValue o) (fun _ => rfl) h

/-- Source operands with the same value are read alike (40_engine.md R406). -/
theorem readOp_alikeFrom {a a' : Operand} (h : SameSource a a' u) (hs : sameButExt u s) (ht : sameButExt u t) :
    (readOp a s).AlikeFrom u (readOp a' t) := by
  obtain ⟨ha, ha', hv⟩ := h
  rw [readOp_ok (operandFault_sameButExt a hs ▸ ha), readOp_ok (operandFault_sameButExt a' ht ▸ ha'),
    ← operandValue_sameButExt a hs, ← operandValue_sameButExt a' ht, hv]
  exact .ok _ (hs.trans (afterRead_sameButExt a s)) (ht.trans (afterRead_sameButExt a' t))

/-- An operand is a destination when it has an effective address (40_engine.md R405). -/
theorem isDest_eq_isSome_effAddr (d : Operand) (s : State) : d.isDest = (effAddr d s).isSome := by
  obtain ⟨m, p⟩ := d
  cases m <;> rfl

/-- Destinations with the same effective address pass the destination check alike. -/
theorem requireDest_alikeFrom {d d' : Operand} (h : effAddr d u = effAddr d' u) :
    (requireDest d u).AlikeFrom u (requireDest d' u) := by
  unfold requireDest
  rw [isDest_eq_isSome_effAddr d u, isDest_eq_isSome_effAddr d' u, h]
  split
  · exact .ok _ rfl rfl
  · exact .raised _ rfl rfl

/-- Destinations with the same effective address are written alike (40_engine.md R406). -/
theorem writeOp_alike_of_effAddr {d d' : Operand} (h : effAddr d u = effAddr d' u) (v : Word)
    (hs : sameButExt u s) (ht : sameButExt u t) : (writeOp d v s).Alike (writeOp d' v t) := by
  have hd : effAddr d t = effAddr d' t := by rw [← effAddr_sameButExt d ht, h, effAddr_sameButExt d' ht]
  have hw : writeOp d v t = writeOp d' v t := by rw [writeOp, hd, writeOp]
  exact hw ▸ writeOp_alike d v (hs.symm.trans ht)

theorem checked_alikeFrom (r : Int) (hs : sameButExt u s) (ht : sameButExt u t) :
    (checked r s).AlikeFrom u (checked r t) := by
  unfold checked
  split
  · exact .ok _ hs ht
  · exact .raised _ hs ht

/-- ADD, MUL, LT and EQ do not see the modes of their operands. -/
theorem threeOperand_alike_of_sameOperands {alu : Word → Word → State → Attempt Word}
    (halu : ∀ x y s t, sameButExt u s → sameButExt u t → (alu x y s).AlikeFrom u (alu x y t))
    {a a' b b' d d' : Operand} (ha : SameSource a a' u) (hb : SameSource b b' u) (hd : effAddr d u = effAddr d' u) :
    (threeOperand alu a b d u).Alike (threeOperand alu a' b' d' u) :=
  (requireDest_alikeFrom hd).bind fun _ _ _ hs ht =>
  (readOp_alikeFrom ha hs ht).bind fun x _ _ hs ht =>
  (readOp_alikeFrom hb hs ht).bind fun y _ _ hs ht =>
  (halu x y _ _ hs ht).bind fun r _ _ hs ht =>
  (writeOp_alike_of_effAddr hd r hs ht).bind fun _ _ _ h => advance_alike 4 h

theorem execIn_sameDest {d d' : Operand} (hd : effAddr d u = effAddr d' u) :
    Outcome.sameButExt (execIn d u) (execIn d' u) := by
  refine Attempt.Alike.finish ((requireDest_alikeFrom hd).bind fun _ s t hs ht => ?_)
  have hq : s.inQ = t.inQ := eq_of_sameButExt State.inQ (fun _ => rfl) (hs.symm.trans ht)
  rw [hq]
  cases t.inQ with
  | nil => exact .ok _ (congrArg State.suspend (hs.symm.trans ht))
  | cons v q =>
    exact (writeOp_alike_of_effAddr hd v hs ht).bind fun _ _ _ h =>
      .ok _ (congrArg (fun u : State => u.dequeueIn.retire (u.pc + 2)) h)

theorem execOut_sameSource {a a' : Operand} (ha : SameSource a a' u) :
    Outcome.sameButExt (execOut a u) (execOut a' u) :=
  ((readOp_alikeFrom ha rfl rfl).bind fun x _ _ hs ht =>
    .ok _ (congrArg (fun u : State => (u.enqueueOut x).retire (u.pc + 2)) (hs.symm.trans ht))).finish

/-- Two jumps that read the same two values and then go on alike end alike. -/
theorem readTwo_alike {a a' b b' : Operand} (ha : SameSource a a' u) (hb : SameSource b b' u)
    {k : Word → Word → State → Attempt Unit} (hk : ∀ x y s t, sameButExt s t → (k x y s).Alike (k x y t)) :
    ((readOp a u).bind fun x s1 => (readOp b s1).bind fun y s2 => k x y s2).Alike
      ((readOp a' u).bind fun x s1 => (readOp b' s1).bind fun y s2 => k x y s2) :=
  (readOp_alikeFrom ha rfl rfl).bind fun x _ _ hs ht =>
  (readOp_alikeFrom hb hs ht).bind fun y _ _ hs ht => hk x y _ _ (hs.symm.trans ht)

theorem execJt_sameSources {a a' b b' : Operand} (ha : SameSource a a' u) (hb : SameSource b b' u) :
    Outcome.sameButExt (execJt a b u) (execJt a' b' u) := by
  refine Attempt.Alike.finish (readTwo_alike ha hb fun x w _ _ h => ?_)
  split
  · exact jumpTo_alike w h
  · exact advance_alike 3 h

theorem execJf_sameSources {a a' b b' : Operand} (ha : SameSource a a' u) (hb : SameSource b b' u) :
    Outcome.sameButExt (execJf a b u) (execJf a' b' u) := by
  refine Attempt.Alike.finish (readTwo_alike ha hb fun x w _ _ h => ?_)
  split
  · exact advance_alike 3 h
  · exact jumpTo_alike w h

theorem execSrel_sameSource {a a' : Operand} (ha : SameSource a a' u) :
    Outcome.sameButExt (execSrel a u) (execSrel a' u) := by
  refine Attempt.Alike.finish ((readOp_alikeFrom ha rfl rfl).bind fun x s t hs ht => ?_)
  have hrb : s.rb = t.rb := eq_of_sameButExt State.rb (fun _ => rfl) (hs.symm.trans ht)
  rw [hrb]
  exact (checked_alike _ (hs.symm.trans ht)).bind fun r _ _ h =>
    .ok _ (congrArg (fun u : State => (u.setBase r).retire (u.pc + 2)) h)

end

/-- Settles O21: the parts of each body are alike from the common state, whatever the modes. -/
theorem modesWithTheSameOperandsAgree : Obligations.ModesWithTheSameOperandsAgree := by
  intro i j s h
  cases i with
  | add a b d =>
    cases j with
    | add a' b' d' =>
      obtain ⟨ha, hb, hd⟩ := h
      exact (threeOperand_alike_of_sameOperands (alu := aluAdd) (fun _ _ _ _ => checked_alikeFrom _) ha hb hd).finish
    | _ => cases h
  | mul a b d =>
    cases j with
    | mul a' b' d' =>
      obtain ⟨ha, hb, hd⟩ := h
      exact (threeOperand_alike_of_sameOperands (alu := aluMul) (fun _ _ _ _ => checked_alikeFrom _) ha hb hd).finish
    | _ => cases h
  | lt a b d =>
    cases j with
    | lt a' b' d' =>
      obtain ⟨ha, hb, hd⟩ := h
      exact (threeOperand_alike_of_sameOperands (alu := aluLt) (fun _ _ _ _ => .ok _) ha hb hd).finish
    | _ => cases h
  | eq a b d =>
    cases j with
    | eq a' b' d' =>
      obtain ⟨ha, hb, hd⟩ := h
      exact (threeOperand_alike_of_sameOperands (alu := aluEq) (fun _ _ _ _ => .ok _) ha hb hd).finish
    | _ => cases h
  | inp d =>
    cases j with
    | inp d' => exact execIn_sameDest h
    | _ => cases h
  | out a =>
    cases j with
    | out a' => exact execOut_sameSource h
    | _ => cases h
  | jt a b =>
    cases j with
    | jt a' b' =>
      obtain ⟨ha, hb⟩ := h
      exact execJt_sameSources ha hb
    | _ => cases h
  | jf a b =>
    cases j with
    | jf a' b' =>
      obtain ⟨ha, hb⟩ := h
      exact execJf_sameSources ha hb
    | _ => cases h
  | srel a =>
    cases j with
    | srel a' => exact execSrel_sameSource h
    | _ => cases h
  | halt =>
    cases j with
    | halt => exact rfl
    | _ => cases h

/-! ### The sequential advance -/

theorem FaultOf.rs_eq {s t : State} (h : FaultOf s t) : t.rs = .faulted := by
  obtain ⟨c, n, -, rfl⟩ := h
  rfl

/-- An instruction that stores a result has three operands (30_encoding.md R300). -/
theorem nops_of_dest {i : Instr} {d : Operand} (hd : i.dest? = some d) (hi : ∀ d, i ≠ .inp d) :
    i.opcode.nops = 3 := by
  cases i with
  | inp d' => exact absurd rfl (hi d')
  | add | mul | lt | eq => rfl
  | _ => cases hd

/-- An effect of a body that leaves the engine Running and is no jump's advances `pc` by the length. -/
theorem BodyEffect.pc_eq {s t : State} {i : Instr} (h : BodyEffect s i t) (ht : t.rs = .running)
    (hi : i.opcode ≠ .jt ∧ i.opcode ≠ .jf) : t.pc = s.pc + 1 + i.opcode.nops := by
  cases h with
  | fault _ hf => cases hf.rs_eq.symm.trans ht
  | store r hd hi' he ha hn hlt => rw [nops_of_dest hd hi']
  | suspend d hq => cases ht
  | jump hj hn hp => exact absurd hj (not_or.mpr hi)
  | halt => cases ht
  | consume hq he ha hn hlt => rfl
  | emit a v hn => rfl
  | rebase a r hn => rfl

/-- An instruction that leaves the engine Running and takes no jump advances `pc` by its length (40_engine.md R413). -/
theorem exec_pc_eq {i : Instr} {s t : State} (h : exec i s = .next t) (ht : t.rs = .running)
    (hjt : ∀ a b, i = .jt a b → (operandValue a s).toInt = 0)
    (hjf : ∀ a b, i = .jf a b → (operandValue a s).toInt ≠ 0) : t.pc = s.pc + 1 + i.opcode.nops := by
  cases i with
  | jt a b =>
    rcases execJt_next h with hf | ⟨n, -, -, rfl⟩ | ⟨n, -, hne, -⟩
    · cases hf.rs_eq.symm.trans ht
    · rfl
    · exact absurd (hjt a b rfl) hne
  | jf a b =>
    rcases execJf_next h with hf | ⟨n, -, -, rfl⟩ | ⟨n, -, hz, -⟩
    · cases hf.rs_eq.symm.trans ht
    · rfl
    · exact absurd hz (hjf a b rfl)
  | _ => exact (exec_effect h).pc_eq ht ⟨nofun, nofun⟩

/-- Settles O34: the advance is the length, and the last parameter lies below a capacity of at most 2^62. -/
theorem sequentialAdvanceIsTheLength : Obligations.SequentialAdvanceIsTheLength := by
  intro i s t h _ ht hjt hjf
  have hpc := exec_pc_eq h ht hjt hjf
  refine ⟨hpc, fun ⟨_, hcap⟩ hlast => ?_⟩
  omega

end Sys2Proof.Machine
end

section
/-! PROOFS. The statements of 41_arithmetic.md: how an instruction of three operands ends, outcome by outcome, and the
exact sum and product. -/

namespace Sys2Proof.Machine

/-! ### The outcomes of an instruction of three operands -/

section
variable {alu : Word → Word → State → Attempt Word} {a b d : Operand} {s : State} {e : Int} {c : Cause} {r : Word}

/-- Slot 1 is read first, so its fault is the one taken and nothing grows (40_engine.md R411). -/
theorem threeOperand_firstSource_fault (hd : effAddr d s = some e) (ha : operandFault a s = some c) :
    (threeOperand alu a b d s).finish = .next (s.takeFault c) := by
  simp only [threeOperand, requireDest_ok (isDest_of_effAddr hd), readOp_raised ha, Attempt.bind_ok,
    Attempt.bind_raised, Attempt.finish_raised]

/-- A fault of slot 2 is taken after the growth slot 1 has made (40_engine.md R411). -/
theorem threeOperand_secondSource_fault (hd : effAddr d s = some e) (ha : operandFault a s = none)
    (hb : operandFault b s = some c) : (threeOperand alu a b d s).finish = .next ((afterRead a s).takeFault c) := by
  rw [← operandFault_afterRead a] at hb
  simp only [threeOperand, requireDest_ok (isDest_of_effAddr hd), readOp_ok ha, readOp_raised hb, Attempt.bind_ok,
    Attempt.bind_raised, Attempt.finish_raised]

/-- With both sources read, what is left is the result on the old values, its write and the advance. -/
theorem threeOperand_of_sources (hd : effAddr d s = some e) (ha : operandFault a s = none)
    (hb : operandFault b s = none) :
    threeOperand alu a b d s =
      (alu (operandValue a s) (operandValue b s) (afterRead b (afterRead a s))).bind fun r s3 =>
        (writeOp d r s3).bind fun _ s4 => .ok () (s4.retire (s4.pc + 4)) := by
  rw [← operandFault_afterRead a] at hb
  simp only [threeOperand, requireDest_ok (isDest_of_effAddr hd), readOp_ok ha, readOp_ok hb, Attempt.bind_ok,
    operandValue_afterRead]

/-- A fault of the result is taken after both reads and before the destination is looked at (40_engine.md R411). -/
theorem threeOperand_result_fault (hd : effAddr d s = some e) (ha : operandFault a s = none)
    (hb : operandFault b s = none)
    (hr : ∀ t, alu (operandValue a s) (operandValue b s) t = .raised c t) :
    (threeOperand alu a b d s).finish = .next ((afterRead b (afterRead a s)).takeFault c) := by
  rw [threeOperand_of_sources hd ha hb, hr, Attempt.bind_raised, Attempt.finish_raised]

/-- With a result, what is left is the access at the effective address of the destination, which the reads have not
moved (40_engine.md R404, R405). -/
theorem threeOperand_of_result (hd : effAddr d s = some e) (ha : operandFault a s = none)
    (hb : operandFault b s = none)
    (hr : ∀ t, alu (operandValue a s) (operandValue b s) t = .ok r t) :
    threeOperand alu a b d s =
      (memWrite e r (afterRead b (afterRead a s))).bind fun _ s4 => .ok () (s4.retire (s4.pc + 4)) := by
  have hd' : effAddr d (afterRead b (afterRead a s)) = some e := by rw [effAddr_afterRead, effAddr_afterRead, hd]
  rw [threeOperand_of_sources hd ha hb, hr, Attempt.bind_ok, writeOp_of_effAddr hd']

/-- A fault of the destination is taken last, and nothing is stored (40_engine.md R411). -/
theorem threeOperand_destination_fault (hd : effAddr d s = some e) (ha : operandFault a s = none)
    (hb : operandFault b s = none)
    (hr : ∀ t, alu (operandValue a s) (operandValue b s) t = .ok r t) (he : s.addressFault e = some c) :
    (threeOperand alu a b d s).finish = .next ((afterRead b (afterRead a s)).takeFault c) := by
  rw [← addressFault_afterRead a, ← addressFault_afterRead b] at he
  rw [threeOperand_of_result hd ha hb hr, memWrite_raised he, Attempt.bind_raised, Attempt.finish_raised]

/-- Without a fault the result is stored at the destination, `pc` advances by 4, and apart from the extent nothing else
has changed (20_memory.md R212, 40_engine.md R413). -/
theorem threeOperand_stores (hd : effAddr d s = some e) (ha : operandFault a s = none)
    (hb : operandFault b s = none)
    (hr : ∀ t, alu (operandValue a s) (operandValue b s) t = .ok r t) (he : s.addressFault e = none) :
    (threeOperand alu a b d s).finish = .next
      { s with
        mem := s.mem.store e.toNat r
        ext := max (afterRead b (afterRead a s)).ext (e.toNat + 1)
        pc := s.pc + 4 } := by
  have hs : afterRead b (afterRead a s) = { s with ext := (afterRead b (afterRead a s)).ext } := by
    rw [afterRead_eq b, afterRead_eq a s]
  rw [← addressFault_afterRead a, ← addressFault_afterRead b] at he
  rw [threeOperand_of_result hd ha hb hr, memWrite_ok he, Attempt.bind_ok, Attempt.finish_ok, hs]
  rfl

end

/-! ### The exact sum and product -/

/-- An instruction of three operands whose result is the test of the exact `f` of the old values: ADD and MUL differ in
`f` alone (41_arithmetic.md R450, R460, R470). -/
theorem threeOperand_exact {alu : Word → Word → State → Attempt Word} {f : Int → Int → Int}
    (halu : ∀ x y t, alu x y t = checked (f x.toInt y.toInt) t) {a b d : Operand} {s : State} {e : Int}
    (hd : effAddr d s = some e) :
    (∀ c, operandFault a s = some c → (threeOperand alu a b d s).finish = .next (s.takeFault c)) ∧
    (∀ c, operandFault a s = none → operandFault b s = some c →
      (threeOperand alu a b d s).finish = .next ((afterRead a s).takeFault c)) ∧
    (operandFault a s = none → operandFault b s = none →
      ¬ fits64 (f (operandValue a s).toInt (operandValue b s).toInt) →
      (threeOperand alu a b d s).finish = .next ((afterRead b (afterRead a s)).takeFault .arithmeticOverflow)) ∧
    (∀ c, operandFault a s = none → operandFault b s = none →
      fits64 (f (operandValue a s).toInt (operandValue b s).toInt) → s.addressFault e = some c →
      (threeOperand alu a b d s).finish = .next ((afterRead b (afterRead a s)).takeFault c)) ∧
    (∀ r : Word, operandFault a s = none → operandFault b s = none → s.addressFault e = none →
      r.toInt = f (operandValue a s).toInt (operandValue b s).toInt →
      (threeOperand alu a b d s).finish = .next
        { s with
          mem := s.mem.store e.toNat r
          ext := max (afterRead b (afterRead a s)).ext (e.toNat + 1)
          pc := s.pc + 4 }) := by
  have hok : ∀ r : Word, r.toInt = f (operandValue a s).toInt (operandValue b s).toInt →
      ∀ t, alu (operandValue a s) (operandValue b s) t = .ok r t :=
    fun r hr t => (halu _ _ t).trans (checked_of_toInt hr)
  exact ⟨fun c ha => threeOperand_firstSource_fault hd ha,
    fun c ha hb => threeOperand_secondSource_fault hd ha hb,
    fun ha hb hover => threeOperand_result_fault hd ha hb fun t => (halu _ _ t).trans (checked_overflow hover),
    fun c ha hb hfits he => threeOperand_destination_fault hd ha hb (hok _ (toInt_ofInt hfits)) he,
    fun r ha hb he hr => threeOperand_stores hd ha hb (hok r hr) he⟩

/-- Settles O23: the result of ADD is the test of the exact sum. -/
theorem addWritesTheExactSum : Obligations.AddWritesTheExactSum :=
  fun _ _ _ _ _ hd => threeOperand_exact (alu := aluAdd) (f := (· + ·)) (fun _ _ _ => rfl) hd

/-- Settles O24: the result of MUL is the test of the exact product. -/
theorem mulWritesTheExactProduct : Obligations.MulWritesTheExactProduct :=
  fun _ _ _ _ _ hd => threeOperand_exact (alu := aluMul) (f := (· * ·)) (fun _ _ _ => rfl) hd

end Sys2Proof.Machine
end

section
/-! PROOFS. The statements of 42_io.md: how IN and OUT end, outcome by outcome, the one way to suspend, and the
re-attempt of a suspended IN. -/

namespace Sys2Proof.Machine

/-! ### The outcomes of IN and OUT -/

section
variable {d : Operand} {s : State} {e : Int} {v : Word} {q : List Word}

/-- The queue is tested before the destination address (42_io.md R501). -/
theorem execIn_empty (hd : d.isDest = true) (hq : s.inQ = []) : execIn d s = .next s.suspend := by
  simp only [execIn, requireDest_ok hd, Attempt.bind_ok, hq, Attempt.finish_ok]

/-- With an input queued, what is left is the write of the oldest, and the dequeue and the advance after it. -/
theorem execIn_of_input (hd : effAddr d s = some e) (hq : s.inQ = v :: q) :
    execIn d s = ((memWrite e v s).bind fun _ s1 => .ok () (s1.dequeueIn.retire (s1.pc + 2))).finish := by
  simp only [execIn, requireDest_ok (isDest_of_effAddr hd), Attempt.bind_ok, hq, writeOp_of_effAddr hd]

/-- A fault of the destination leaves the input queued (42_io.md R501). -/
theorem execIn_destination_fault {c : Cause} (hd : effAddr d s = some e) (hq : s.inQ = v :: q)
    (he : s.addressFault e = some c) : execIn d s = .next (s.takeFault c) := by
  rw [execIn_of_input hd hq, memWrite_raised he, Attempt.bind_raised, Attempt.finish_raised]

/-- Without a fault the oldest input moves to the destination (42_io.md R501). -/
theorem execIn_transfers (hd : effAddr d s = some e) (hq : s.inQ = v :: q) (he : s.addressFault e = none) :
    execIn d s = .next
      { s with mem := s.mem.store e.toNat v, ext := max s.ext (e.toNat + 1), inQ := q, pc := s.pc + 2 } := by
  have htail : q = s.inQ.tail := by rw [hq, List.tail_cons]
  rw [execIn_of_input hd hq, memWrite_ok he, Attempt.bind_ok, Attempt.finish_ok, htail]
  rfl

end

/-- Settles O27: the tests of IN in their order, the queue before the destination. -/
theorem inTransfersTheOldestInput : Obligations.InTransfersTheOldestInput :=
  fun _ _ _ hd => ⟨execIn_empty (isDest_of_effAddr hd), fun _ _ _ hq he => execIn_destination_fault hd hq he,
    fun _ _ hq he => execIn_transfers hd hq he⟩

/-- A fault of the source leaves the output queue as it is (42_io.md R510). -/
theorem execOut_source_fault {a : Operand} {s : State} {c : Cause} (ha : operandFault a s = some c) :
    execOut a s = .next (s.takeFault c) := by
  rw [execOut, readOp_raised ha, Attempt.bind_raised, Attempt.finish_raised]

/-- Without a fault the operand goes to the young end of the output queue (42_io.md R510). -/
theorem execOut_appends {a : Operand} {s : State} (ha : operandFault a s = none) :
    execOut a s = .next
      { s with ext := (afterRead a s).ext, outQ := s.outQ ++ [operandValue a s], pc := s.pc + 2 } := by
  rw [execOut, readOp_ok ha, Attempt.bind_ok, Attempt.finish_ok, afterRead_eq a s]
  rfl

/-- Settles O28: the read of the source faults, or its value is appended. -/
theorem outAppendsItsOperand : Obligations.OutAppendsItsOperand :=
  fun _ _ => ⟨fun _ ha => execOut_source_fault ha, execOut_appends⟩

/-! ### Suspension -/

/-- A fetched instruction has passed the checks of the decoder (30_encoding.md R307). -/
theorem fetchInstr_wellFormed {s s1 : State} {i : Instr} (h : fetchInstr s = .ok i s1) : i.wellFormed = true := by
  obtain ⟨hd, hdec, rfl, -⟩ := fetchInstr_eq_ok h
  obtain ⟨hl, -⟩ := decodeWord_eq_ok_iff_word.mp hdec
  rw [Instr.wellFormed_iff_legal, Header.header_instr hl]
  exact hl

/-- A step at an IN with an empty input queue suspends: a fetched IN has a destination, so no fault comes before the
test of the queue (42_io.md R500). -/
theorem step_suspends {s s1 : State} {d : Operand} (hr : s.rs = .running) (hf : fetchInstr s = .ok (.inp d) s1)
    (hq : s.inQ = []) : step s = .next { s with ext := max s.ext (s.pc + 2), rs := .awaitingInput } := by
  have hd : d.isDest = true := fetchInstr_wellFormed hf
  obtain ⟨-, -, -, -, -, rfl⟩ := fetchInstr_eq_ok hf
  rw [step_of_fetch_ok hr hf]
  exact execIn_empty hd hq

/-- A body suspends a Running engine on an empty input queue alone (42_io.md R500). -/
theorem BodyEffect.inQ_eq_nil {s t : State} {i : Instr} (h : BodyEffect s i t) (hr : s.rs = .running)
    (ht : t.rs = .awaitingInput) : s.inQ = [] := by
  cases h with
  | fault _ hf => cases hf.rs_eq.symm.trans ht
  | suspend d hq => exact hq
  | halt => cases ht
  | _ => cases hr.symm.trans ht

/-- A step that suspends a Running engine has fetched an IN and found the input queue empty (42_io.md R500). -/
theorem exists_inp_of_step_suspends {s t : State} (hr : s.rs = .running) (h : step s = .next t)
    (ht : t.rs = .awaitingInput) : s.inQ = [] ∧ ∃ d s1, fetchInstr s = .ok (.inp d) s1 := by
  rcases step_cases h with ⟨hne, -⟩ | ⟨-, -, hf⟩ | ⟨-, i, s1, hf, hb⟩
  · exact absurd hr hne
  · cases hf.rs_eq.symm.trans ht
  · obtain ⟨n, -, -, rfl⟩ := fetchInstr_ok_grown hf
    obtain ⟨⟨d, rfl⟩, -⟩ := hb.suspends hr ht
    exact ⟨hb.inQ_eq_nil hr ht, d, _, hf⟩

/-- Settles O40: the step at such an IN is the only one that suspends, and the loop of the run stops after it. -/
theorem onlyInOnEmptyInputSuspends : Obligations.OnlyInOnEmptyInputSuspends := by
  intro s t hr h
  have heq : s.inQ = [] ∧ (∃ d s1, fetchInstr s = .ok (.inp d) s1) →
      t = { s with ext := max s.ext (s.pc + 2), rs := .awaitingInput } := by
    rintro ⟨hq, d, s1, hf⟩
    cases h.symm.trans (step_suspends hr hf hq)
    rfl
  refine ⟨⟨exists_inp_of_step_suspends hr h, fun hin => by rw [heq hin]⟩, fun ht => ?_⟩
  refine ⟨heq (exists_inp_of_step_suspends hr h ht), fun n => ?_⟩
  rw [runLoop_succ hr h, runLoop_idle (by simp [ht])]

/-! ### Resume -/

theorem beginRun_of_awaitingInput {s : State} (hr : s.rs = .awaitingInput) :
    beginRun s = { s with rs := .running } := by
  rw [beginRun, hr]

theorem issueWithin_write {s : State} (hr : s.rs ≠ .running) (n : Nat) (x : Word) :
    issueWithin n (.write x) s = some (.done, writeEffect x s) := if_neg hr

theorem issueWithin_run {s : State} (hr : s.rs ≠ .running) (n : Nat) :
    issueWithin n .run s = (runLoop n (beginRun s)).map fun t => (.code t.rs.code, t) := if_neg hr

/-- The first step of a resumed run re-attempts the suspended IN, and its fetch grows nothing: the fetch before the
suspension has grown the extent over both cells (42_io.md R502). -/
theorem step_beginRun_of_awaitingInput {s : State} {d : Operand} (hinv : s.Inv) (hr : s.rs = .awaitingInput)
    (hdec : decode (s.mem.cellsFrom s.pc 2) = .ok (.inp d, [])) :
    step (beginRun s) = execIn d { s with rs := .running } := by
  obtain ⟨-, -, -, -, hcap, -, -, hwait⟩ := hinv
  obtain ⟨-, hext⟩ := hwait hr
  have hstep := stepRunsTheDecodedInstruction { s with rs := .running } (.inp d) rfl hdec (hext.trans hcap)
  have hgrow : max s.ext (s.pc + (Instr.inp d).length) = s.ext := max_eq_left hext
  rw [beginRun_of_awaitingInput hr, hstep, hgrow]
  rfl

/-- Settles O55: the IN is re-attempted in the state it suspended in, before a write and after one. -/
theorem resumeReattemptsTheSuspendedIn : Obligations.ResumeReattemptsTheSuspendedIn := by
  intro s d e n hinv hr hq hdec hd
  have hne : s.rs ≠ .running := by simp [hr]
  refine ⟨?_, fun x he => ⟨writeEffect x s, issueWithin_write hne n x, ?_⟩⟩
  · have hsame : State.suspend { s with rs := .running } = s := by rw [State.suspend, ← hr]
    have hstep : step (beginRun s) = .next s := by
      rw [step_beginRun_of_awaitingInput hinv hr hdec]
      exact (execIn_empty (s := { s with rs := .running }) (isDest_of_effAddr hd) hq).trans (congrArg _ hsame)
    have hrun : (beginRun s).rs = .running := by rw [beginRun_of_awaitingInput hr]
    rw [issueWithin_run hne, runLoop_succ hrun hstep, runLoop_idle hne, Option.map_some, hr]
    rfl
  · have hinQ : (writeEffect x s).inQ = x :: [] := by rw [writeEffect, hq, List.nil_append]
    rw [step_beginRun_of_awaitingInput (command_keeps_inv hinv (issueWithin_write hne n x)) hr hdec]
    exact execIn_transfers hd hinQ he

end Sys2Proof.Machine
end

section
/-! PROOFS. The statements of 43_jumps.md: JT and JF as one jump on a condition, outcome by outcome. -/

namespace Sys2Proof.Machine

/-! ### The outcomes of a jump -/

/-- The shape JT and JF share: both operands are read, then the jump is taken if `taken` holds of the first
(43_jumps.md R550, R560). -/
def jumpWhen (taken : Word → Bool) (a b : Operand) (s : State) : Attempt Unit :=
  (readOp a s).bind fun x s1 =>
  (readOp b s1).bind fun y s2 =>
  if taken x then jumpTo y s2 else .ok () (s2.retire (s2.pc + 3))

/-- JT jumps on a first operand that is not 0 (43_jumps.md R550). -/
theorem exec_jt (a b : Operand) (s : State) : exec (.jt a b) s = (jumpWhen aluNz a b s).finish := rfl

/-- JF jumps on the opposite condition of JT (43_jumps.md R560). -/
theorem exec_jf (a b : Operand) (s : State) : exec (.jf a b) s = (jumpWhen (fun x => !aluNz x) a b s).finish := by
  change execJf a b s = _
  simp only [execJf, jumpWhen, Bool.not_eq_true', ← Bool.not_eq_true, ite_not]

/-- A jump to a negative target raises and leaves `pc` alone (43_jumps.md R552). -/
theorem jumpTo_raised {t : Word} (h : t.toInt < 0) (s : State) : jumpTo t s = .raised .negativeAddress s :=
  if_pos h

/-- Reading two operands changes the extent alone (20_memory.md R215). -/
theorem afterRead_afterRead_eq (a b : Operand) (s : State) :
    afterRead b (afterRead a s) = { s with ext := (afterRead b (afterRead a s)).ext } := by
  rw [afterRead_eq b, afterRead_eq a s]

section
variable {taken : Word → Bool} {a b : Operand} {s : State} {c : Cause}

/-- The condition is read first, so its fault is the one taken and nothing grows (40_engine.md R411). -/
theorem jumpWhen_condition_fault (ha : operandFault a s = some c) :
    (jumpWhen taken a b s).finish = .next (s.takeFault c) := by
  rw [jumpWhen, readOp_raised ha, Attempt.bind_raised, Attempt.finish_raised]

/-- The target is read whether or not the jump is taken, so its fault is taken either way (43_jumps.md R550). -/
theorem jumpWhen_target_fault (ha : operandFault a s = none) (hb : operandFault b s = some c) :
    (jumpWhen taken a b s).finish = .next ((afterRead a s).takeFault c) := by
  rw [← operandFault_afterRead a] at hb
  rw [jumpWhen, readOp_ok ha, Attempt.bind_ok, readOp_raised hb, Attempt.bind_raised, Attempt.finish_raised]

/-- With both operands read, what is left is the choice on the old values. -/
theorem jumpWhen_of_sources (ha : operandFault a s = none) (hb : operandFault b s = none) :
    jumpWhen taken a b s =
      if taken (operandValue a s) then jumpTo (operandValue b s) (afterRead b (afterRead a s))
      else .ok () ((afterRead b (afterRead a s)).retire ((afterRead b (afterRead a s)).pc + 3)) := by
  rw [← operandFault_afterRead a] at hb
  rw [jumpWhen, readOp_ok ha, Attempt.bind_ok, readOp_ok hb, Attempt.bind_ok, operandValue_afterRead]

/-- A taken jump sets `pc` to its target, and apart from the extent nothing else has changed (43_jumps.md R550). -/
theorem jumpWhen_taken (ha : operandFault a s = none) (hb : operandFault b s = none)
    (ht : taken (operandValue a s) = true) (hn : 0 ≤ (operandValue b s).toInt) :
    (jumpWhen taken a b s).finish = .next
      { s with ext := (afterRead b (afterRead a s)).ext, pc := (operandValue b s).toInt.toNat } := by
  rw [jumpWhen_of_sources ha hb, if_pos ht, jumpTo_ok hn, Attempt.finish_ok, afterRead_afterRead_eq]
  rfl

/-- A jump that is not taken advances by its length, and apart from the extent nothing else has changed
(40_engine.md R413). -/
theorem jumpWhen_notTaken (ha : operandFault a s = none) (hb : operandFault b s = none)
    (ht : taken (operandValue a s) = false) :
    (jumpWhen taken a b s).finish = .next { s with ext := (afterRead b (afterRead a s)).ext, pc := s.pc + 3 } := by
  rw [jumpWhen_of_sources ha hb, if_neg (ht ▸ Bool.false_ne_true), Attempt.finish_ok, afterRead_afterRead_eq]
  rfl

/-- A taken jump to a negative target faults after both reads (43_jumps.md R552). -/
theorem jumpWhen_taken_negative (ha : operandFault a s = none) (hb : operandFault b s = none)
    (ht : taken (operandValue a s) = true) (hn : (operandValue b s).toInt < 0) :
    (jumpWhen taken a b s).finish = .next
      { s with ext := (afterRead b (afterRead a s)).ext, rs := .faulted, fc := some .negativeAddress } := by
  rw [jumpWhen_of_sources ha hb, if_pos ht, jumpTo_raised hn, Attempt.finish_raised, afterRead_afterRead_eq]
  rfl

end

theorem not_aluNz_eq_true {x : Word} : (!aluNz x) = true ↔ x.toInt = 0 := by
  rw [Bool.not_eq_true', aluNz_eq_false]

theorem not_aluNz_eq_false {x : Word} : (!aluNz x) = false ↔ x.toInt ≠ 0 := by
  rw [Bool.not_eq_false', aluNz_eq_true]

/-- Settles O29: JT is the jump on a first operand that is not 0, whose outcomes are known one by one. -/
theorem jtJumpsWhenNotZero : Obligations.JtJumpsWhenNotZero := by
  intro a b s
  rw [exec_jt]
  exact ⟨fun _ => jumpWhen_condition_fault, fun _ => jumpWhen_target_fault,
    fun ha hb hx => jumpWhen_taken ha hb (aluNz_eq_true.mpr hx),
    fun ha hb hx => jumpWhen_notTaken ha hb (aluNz_eq_false.mpr hx)⟩

/-- Settles O30: JF is the same jump on a first operand that is 0. -/
theorem jfJumpsWhenZero : Obligations.JfJumpsWhenZero := by
  intro a b s
  rw [exec_jf]
  exact ⟨fun _ => jumpWhen_condition_fault, fun _ => jumpWhen_target_fault,
    fun ha hb hx => jumpWhen_taken ha hb (not_aluNz_eq_true.mpr hx),
    fun ha hb hx => jumpWhen_notTaken ha hb (not_aluNz_eq_false.mpr hx)⟩

/-- Settles O31: both jumps, taken, raise at a negative target, and a fault does not touch `pc`. -/
theorem takenJumpToNegativeTargetFaults : Obligations.TakenJumpToNegativeTargetFaults := by
  intro a b s ha hb hn
  rw [exec_jt, exec_jf]
  exact ⟨fun hx => jumpWhen_taken_negative ha hb (aluNz_eq_true.mpr hx) hn,
    fun hx => jumpWhen_taken_negative ha hb (not_aluNz_eq_true.mpr hx) hn⟩

end Sys2Proof.Machine
end

section
/-! PROOFS. The statements of 44_compare.md: LT and EQ as one comparison that stores 1 or 0. -/

namespace Sys2Proof.Machine

/-- EQ compares as integers what the words compare as patterns (44_compare.md R610). -/
theorem aluEq_eq (x y : Word) (t : State) : aluEq x y t = .ok (if x = y then 1#64 else 0#64) t := by
  simp only [aluEq, BitVec.toInt_inj]

/-- A truth value is stored as the word 1 or 0, the only word of that value (44_compare.md R600). -/
theorem eq_truth_of_toInt {p : Prop} [Decidable p] {r : Word} (h : r.toInt = if p then 1 else 0) :
    r = if p then 1#64 else 0#64 := by
  apply BitVec.eq_of_toInt_eq
  rw [h]
  split <;> rfl

/-- An instruction of three operands whose result is the truth of `p` on the old values: it never overflows, and LT and
EQ differ in `p` alone (44_compare.md R600, R610). -/
theorem threeOperand_comparison {alu : Word → Word → State → Attempt Word} {p : Word → Word → Prop}
    [∀ x y, Decidable (p x y)] (halu : ∀ x y t, alu x y t = .ok (if p x y then 1#64 else 0#64) t)
    {a b d : Operand} {s : State} {e : Int} (hd : effAddr d s = some e) :
    (∀ c, operandFault a s = some c → (threeOperand alu a b d s).finish = .next (s.takeFault c)) ∧
    (∀ c, operandFault a s = none → operandFault b s = some c →
      (threeOperand alu a b d s).finish = .next ((afterRead a s).takeFault c)) ∧
    (∀ c, operandFault a s = none → operandFault b s = none → s.addressFault e = some c →
      (threeOperand alu a b d s).finish = .next ((afterRead b (afterRead a s)).takeFault c)) ∧
    (∀ r : Word, operandFault a s = none → operandFault b s = none → s.addressFault e = none →
      r.toInt = (if p (operandValue a s) (operandValue b s) then 1 else 0) →
      (threeOperand alu a b d s).finish = .next
        { s with
          mem := s.mem.store e.toNat r
          ext := max (afterRead b (afterRead a s)).ext (e.toNat + 1)
          pc := s.pc + 4 }) := by
  refine ⟨fun c ha => threeOperand_firstSource_fault hd ha,
    fun c ha hb => threeOperand_secondSource_fault hd ha hb,
    fun c ha hb he => threeOperand_destination_fault hd ha hb (halu _ _) he,
    fun r ha hb he hr => ?_⟩
  rw [eq_truth_of_toInt hr]
  exact threeOperand_stores hd ha hb (halu _ _) he

/-- Settles O25: the result of LT is the truth of the signed comparison. -/
theorem ltWritesTheSignedComparison : Obligations.LtWritesTheSignedComparison :=
  fun _ _ _ _ _ hd => threeOperand_comparison (alu := aluLt) (p := fun x y => x.toInt < y.toInt) (fun _ _ _ => rfl) hd

/-- Settles O26: the result of EQ is the truth of the equality. -/
theorem eqWritesTheEquality : Obligations.EqWritesTheEquality :=
  fun _ _ _ _ _ hd => threeOperand_comparison (p := (· = ·)) aluEq_eq hd

end Sys2Proof.Machine
end

section
/-! PROOFS. The statement of 45_relbase.md: SREL, outcome by outcome. -/

namespace Sys2Proof.Machine

section
variable {a : Operand} {s : State}

/-- A fault of the source leaves the relative base as it is (45_relbase.md R650). -/
theorem execSrel_source_fault {c : Cause} (ha : operandFault a s = some c) :
    execSrel a s = .next (s.takeFault c) := by
  rw [execSrel, readOp_raised ha, Attempt.bind_raised, Attempt.finish_raised]

/-- With the operand read through the old relative base, what is left is the sum with that same base, since a read
grows the extent alone (45_relbase.md R650). -/
theorem execSrel_of_source (ha : operandFault a s = none) :
    execSrel a s = ((checked (s.rb.toInt + (operandValue a s).toInt) (afterRead a s)).bind fun r t =>
      .ok () ((t.setBase r).retire (t.pc + 2))).finish := by
  rw [execSrel, readOp_ok ha, Attempt.bind_ok, aluAdd, afterRead_rb]

/-- A sum outside `i64` faults after the read (41_arithmetic.md R470). -/
theorem execSrel_overflow (ha : operandFault a s = none) (hv : ¬ fits64 (s.rb.toInt + (operandValue a s).toInt)) :
    execSrel a s = .next ((afterRead a s).takeFault .arithmeticOverflow) := by
  rw [execSrel_of_source ha, checked_overflow hv, Attempt.bind_raised, Attempt.finish_raised]

/-- A sum inside `i64` becomes the relative base, and apart from the extent and `pc` nothing else has changed
(45_relbase.md R650). -/
theorem execSrel_rebases {r : Word} (ha : operandFault a s = none)
    (hr : r.toInt = s.rb.toInt + (operandValue a s).toInt) :
    execSrel a s = .next { s with ext := (afterRead a s).ext, rb := r, pc := s.pc + 2 } := by
  rw [execSrel_of_source ha, checked_of_toInt hr, Attempt.bind_ok, Attempt.finish_ok, afterRead_eq a s]
  rfl

end

/-- Settles O32: the read of the source faults, or the sum overflows, or it becomes the relative base. -/
theorem srelAddsToTheRelativeBase : Obligations.SrelAddsToTheRelativeBase :=
  fun _ _ => ⟨fun _ ha => execSrel_source_fault ha, execSrel_overflow, fun _ => execSrel_rebases⟩

end Sys2Proof.Machine
end

section
/-! PROOFS. The statement of 46_halt.md: HALT, its word, its effect and what a Halted engine does. -/

namespace Sys2Proof.Machine

/-- A run begun in Halted stays there (48_driver_commands.md R763). -/
theorem beginRun_of_halted {s : State} (hr : s.rs = .halted) : beginRun s = s := by
  rw [beginRun, hr]

/-- A run of a Halted engine reports Halted and changes nothing (48_driver_commands.md R763). -/
theorem issueWithin_run_of_halted {s : State} (hr : s.rs = .halted) (n : Nat) :
    issueWithin n .run s = some (.code 3, s) := by
  have hne : s.rs ≠ .running := by simp [hr]
  rw [issueWithin_run hne, beginRun_of_halted hr, runLoop_idle hne, Option.map_some, hr]
  rfl

/-- Settles O33: 99 is the one listed word of HALT, and the state HALT leaves is idle and stays so under a run. -/
theorem haltStopsTheEngine : Obligations.HaltStopsTheEngine := by
  refine ⟨fun w => ?_, rfl, fun s => ⟨execHalt_eq s, step_idle (by simp), issueWithin_run_of_halted rfl⟩⟩
  exact (legalWordsAreTheListed99.1 w .halt).trans List.mem_singleton

end Sys2Proof.Machine
end

section
/-! PROOFS. The statements of 48_driver_commands.md: one equation per command, the loop of `run()` as a run of steps,
and the run state each command leaves. -/

namespace Sys2Proof.Machine

/-! ### One equation per command -/

/-- Settles O56: a Running engine refuses every command alike. -/
theorem busyInterfaceRefuses : Obligations.BusyInterfaceRefuses :=
  fun _ _ _ hr => if_pos hr

section
variable {s : State} (hr : s.rs ≠ .running) (n : Nat)
include hr

theorem issueWithin_reset : issueWithin n .reset s = some (.done, resetEffect s) := if_neg hr

theorem issueWithin_load (P : List Word) : issueWithin n (.load P) s = some (loadEffect P s) := if_neg hr

theorem issueWithin_read : issueWithin n .read s = some (readEffect s) := if_neg hr

theorem issueWithin_canRead : issueWithin n .canRead s = some (.flag (decide (s.outQ ≠ [])), s) := if_neg hr

theorem issueWithin_stateCode : issueWithin n .state s = some (.code s.rs.code, s) := if_neg hr

theorem issueWithin_peek (a : Int) : issueWithin n (.peek a) s = some (peekResponse a s, s) := if_neg hr

theorem issueWithin_extent : issueWithin n .extent s = some (.number s.ext, s) := if_neg hr

theorem issueWithin_getPC : issueWithin n .getPC s = some (.number s.pc, s) := if_neg hr

theorem issueWithin_getRB : issueWithin n .getRB s = some (.word s.rb, s) := if_neg hr

theorem issueWithin_faultCause : issueWithin n .faultCause s = some (.code (causeCode s.fc), s) := if_neg hr

theorem issueWithin_inCount : issueWithin n .inCount s = some (.number s.inQ.length, s) := if_neg hr

end

/-! ### Reset and load -/

@[simp] theorem resetEffect_rs (s : State) : (resetEffect s).rs = .ready := rfl

theorem resetEffect_resetEffect (s : State) : resetEffect (resetEffect s) = resetEffect s := rfl

theorem loadEffect_refused {P : List Word} {s : State} (h : s.cfg.memCapacity < P.length) :
    loadEffect P s = (.refused, s) := if_pos h

theorem loadEffect_accepted {P : List Word} {s : State} (h : P.length ≤ s.cfg.memCapacity) :
    loadEffect P s = (.accepted, resetEffect { s with prog := P }) := if_neg (Nat.not_lt.mpr h)

/-- Settles O48: memory is the image of the program store, and a reset reads nothing that it changes. -/
theorem resetCommandEffect : Obligations.ResetCommandEffect := by
  intro n s hr
  have hagain : issueWithin n .reset (resetEffect s) = some (.done, resetEffect s) := by
    rw [issueWithin_reset (by simp), resetEffect_resetEffect]
  exact ⟨resetEffect s, issueWithin_reset hr n, Memory.cell_image s.prog, rfl, rfl, rfl, rfl, rfl, rfl, rfl, rfl, rfl,
    hagain⟩

/-- Settles O49: an accepted load is a reset with the program in the store. -/
theorem loadCommandEffect : Obligations.LoadCommandEffect := by
  intro n P s hr
  rw [issueWithin_load hr]
  refine ⟨fun h => by rw [loadEffect_refused h], fun h => ?_⟩
  rw [loadEffect_accepted h]
  exact ⟨_, rfl, rfl, issueWithin_reset (s := { s with prog := P }) hr n⟩

/-! ### The queues and the inspections -/

theorem readEffect_cons {s : State} {v : Word} {q : List Word} (h : s.outQ = v :: q) :
    readEffect s = (.value v true, { s with outQ := q }) := by rw [readEffect, h]

theorem readEffect_nil {s : State} (h : s.outQ = []) : readEffect s = (.value 0#64 false, s) := by rw [readEffect, h]

/-- Settles O50: a write leaves the run state, so an engine that was idle still is. -/
theorem writeCommandOnlyQueues : Obligations.WriteCommandOnlyQueues :=
  fun n v s hr => ⟨issueWithin_write hr n v, step_idle (s := writeEffect v s) hr⟩

/-- Settles O51: the output queue holds a value or is empty. -/
theorem readCommand : Obligations.ReadCommand := by
  intro n s hr
  rw [issueWithin_read hr]
  exact ⟨fun v q h => congrArg some (readEffect_cons h), fun h => congrArg some (readEffect_nil h)⟩

/-- Settles O52: the response is the code of the run state, and the test of the output queue. -/
theorem stateAndCanReadCommands : Obligations.StateAndCanReadCommands :=
  fun n _ hr => ⟨issueWithin_stateCode hr n, _, issueWithin_canRead hr n, decide_eq_true_iff⟩

theorem peekResponse_inside {a : Int} {s : State} (h0 : 0 ≤ a) (h : a < s.cfg.memCapacity) :
    peekResponse a s = .word (s.mem.cell a.toNat) := by
  rw [peekResponse, State.addressFault_eq_none.mpr ⟨h0, h⟩]

theorem peekResponse_outside {a : Int} {s : State} (h : a < 0 ∨ s.cfg.memCapacity ≤ a) :
    peekResponse a s = .refused := by
  have hne : s.addressFault a ≠ none := fun hnone => by
    obtain ⟨h0, hlt⟩ := State.addressFault_eq_none.mp hnone
    omega
  obtain ⟨c, hc⟩ := Option.ne_none_iff_exists'.mp hne
  rw [peekResponse, hc]

/-- Settles O53: a peek makes the address checks of an access, and the cells beyond the extent hold 0. -/
theorem inspectionCommands : Obligations.InspectionCommands := by
  intro n s hr
  refine ⟨fun a h0 h => ?_, fun a hin hext h => ?_, fun a h => ?_, issueWithin_extent hr n, issueWithin_getPC hr n,
    issueWithin_getRB hr n, issueWithin_faultCause hr n, issueWithin_inCount hr n⟩
  · rw [issueWithin_peek hr, peekResponse_inside h0 h]
  · rw [issueWithin_peek hr, peekResponse_inside (by omega) h, Memory.cell_beyond hin (by omega)]
  · rw [issueWithin_peek hr, peekResponse_outside h]

/-! ### The loop of `run()` as a run of steps -/

/-- One turn of the loop is one step of the engine, which is none where the engine is idle (40_engine.md R400). -/
theorem runLoop_step {n : Nat} {s u : State} (hu : step s = .next u) : runLoop (n + 1) s = runLoop n u := by
  by_cases hr : s.rs = .running
  · exact runLoop_succ hr hu
  · cases (step_idle hr).symm.trans hu
    rw [runLoop_idle hr, runLoop_idle hr]

/-- The loop returns what its budget of steps leads to, provided that it is not Running (48_driver_commands.md R763). -/
theorem runLoop_eq_some_iff {n : Nat} {s t : State} :
    runLoop n s = some t ↔ t.rs ≠ .running ∧ Sys2Proof.core.run n s = .next t := by
  induction n generalizing s with
  | zero =>
    have hrun : Sys2Proof.core.run 0 s = .next t ↔ s = t := ⟨fun h => by cases h; rfl, fun h => h ▸ rfl⟩
    rw [hrun]
    by_cases hr : s.rs = .running
    · rw [runLoop_zero hr]
      exact ⟨nofun, fun ⟨ht, hst⟩ => absurd (hst ▸ hr) ht⟩
    · rw [runLoop_idle hr, Option.some.injEq]
      exact ⟨fun hst => ⟨hst ▸ hr, hst⟩, And.right⟩
  | succ n ih =>
    obtain ⟨u, hu⟩ := step_next s
    rw [runLoop_step hu, core_run_step hu, ih]

theorem beginRun_of_ready {s : State} (hr : s.rs = .ready) : beginRun s = { s with rs := .running } := by
  rw [beginRun, hr]

theorem beginRun_of_faulted {s : State} (hr : s.rs = .faulted) : beginRun s = s := by
  rw [beginRun, hr]

/-- A run that returns reports the run state its loop ended in (48_driver_commands.md R763). -/
theorem issueWithin_run_eq_some {n : Nat} {s t : State} {r : Response} (hr : s.rs ≠ .running) :
    issueWithin n .run s = some (r, t) ↔ r = .code t.rs.code ∧ runLoop n (beginRun s) = some t := by
  rw [issueWithin_run hr, Option.map_eq_some_iff]
  constructor
  · rintro ⟨u, hu, hut⟩
    cases hut
    exact ⟨rfl, hu⟩
  · rintro ⟨rfl, ht⟩
    exact ⟨t, ht, rfl⟩

/-- A run of a Halted or Faulted engine reports that state and changes nothing (48_driver_commands.md R763). -/
theorem issueWithin_run_of_terminal {s : State} (h : s.rs = .halted ∨ s.rs = .faulted) (n : Nat) :
    issueWithin n .run s = some (.code s.rs.code, s) := by
  have hr : s.rs ≠ .running := by rcases h with h | h <;> simp [h]
  have hbegin : beginRun s = s := h.elim beginRun_of_halted beginRun_of_faulted
  rw [issueWithin_run_eq_some hr, hbegin]
  exact ⟨rfl, runLoop_idle hr⟩

/-- Settles O54: the loop with a budget of `n` returns exactly what `n` steps lead to, once it is not Running. -/
theorem runCommandStepsUntilNotRunning : Obligations.RunCommandStepsUntilNotRunning := by
  intro s
  refine ⟨issueWithin_run_of_halted, fun h n => ?_, fun h t => ?_⟩
  · rw [issueWithin_run_of_terminal (.inr h), h]
    rfl
  · have hr : s.rs ≠ .running := by rcases h with h | h <;> simp [h]
    have hbegin : beginRun s = { s with rs := .running } := h.elim beginRun_of_ready beginRun_of_awaitingInput
    have hreturns (n : Nat) : issueWithin n .run s = some (.code t.rs.code, t) ↔
        t.rs ≠ .running ∧ Sys2Proof.core.run n { s with rs := .running } = .next t := by
      rw [issueWithin_run_eq_some hr, hbegin, runLoop_eq_some_iff]
      exact and_iff_right rfl
    exact (exists_congr hreturns).trans exists_and_left

/-! ### The run state -/

/-- No effect of a body makes the engine Ready. -/
theorem BodyEffect.rs_ne_ready {s t : State} {i : Instr} (h : BodyEffect s i t) (hs : s.rs ≠ .ready) :
    t.rs ≠ .ready := by
  cases h with
  | fault _ hf => simp [hf.rs_eq]
  | suspend d hq => simp
  | halt => simp
  | _ => exact hs

/-- A step does not make the engine Ready (48_driver_commands.md R770). -/
theorem step_rs_ne_ready {s t : State} (hs : s.rs ≠ .ready) (h : step s = .next t) : t.rs ≠ .ready := by
  rcases step_cases h with ⟨-, rfl⟩ | ⟨-, -, hf⟩ | ⟨-, i, s1, hfetch, hb⟩
  · exact hs
  · simp [hf.rs_eq]
  · obtain ⟨n, -, -, rfl⟩ := fetchInstr_ok_grown hfetch
    exact hb.rs_ne_ready hs

theorem beginRun_rs_ne_ready (s : State) : (beginRun s).rs ≠ .ready := by
  unfold beginRun
  split <;> simp_all

/-- A run that returns does not leave the engine Ready (48_driver_commands.md R770). -/
theorem run_rs_ne_ready {n : Nat} {s t : State} {r : Response} (hr : s.rs ≠ .running)
    (h : issueWithin n .run s = some (r, t)) : t.rs ≠ .ready := by
  obtain ⟨-, hloop⟩ := (issueWithin_run_eq_some hr).mp h
  exact (runLoop_returns (P := fun u => u.rs ≠ .ready) (fun _ _ => step_rs_ne_ready) hloop (beginRun_rs_ne_ready s)).1

/-- A load makes the engine Ready where it is accepted and changes nothing where it is refused
(48_driver_commands.md R761). -/
theorem loadEffect_cases {P : List Word} {s t : State} {r : Response} (h : loadEffect P s = (r, t)) :
    r = .accepted ∧ t.rs = .ready ∨ r = .refused ∧ t = s := by
  rcases Nat.lt_or_ge s.cfg.memCapacity P.length with hP | hP
  · rw [loadEffect_refused hP] at h
    cases h
    exact .inr ⟨rfl, rfl⟩
  · rw [loadEffect_accepted hP] at h
    cases h
    exact .inl ⟨rfl, rfl⟩

section
variable {n : Nat} {c : Command} {s t : State} {r : Response} (hr : s.rs ≠ .running)
  (h : issueWithin n c s = some (r, t))
include hr h

/-- Reset and an accepted load make the engine Ready (48_driver_commands.md R770). -/
theorem command_rs_ready (hc : c = .reset ∨ ∃ P, c = .load P ∧ r = .accepted) : t.rs = .ready := by
  rcases hc with rfl | ⟨P, rfl, rfl⟩
  · rw [issueWithin_reset hr] at h
    cases h
    rfl
  · rw [issueWithin_load hr] at h
    rcases loadEffect_cases (Option.some.inj h) with ⟨-, ht⟩ | ⟨hrefused, -⟩
    · exact ht
    · cases hrefused

/-- Every command but reset, an accepted load and run keeps the run state (48_driver_commands.md R770). -/
theorem command_keeps_rs (hreset : c ≠ .reset) (hload : ∀ P, c = .load P → r ≠ .accepted) (hrun : c ≠ .run) :
    t.rs = s.rs := by
  cases c with
  | reset => exact absurd rfl hreset
  | run => exact absurd rfl hrun
  | load P =>
    rw [issueWithin_load hr] at h
    rcases loadEffect_cases (Option.some.inj h) with ⟨hacc, -⟩ | ⟨-, rfl⟩
    · exact absurd hacc (hload P rfl)
    · rfl
  | write v =>
    rw [issueWithin_write hr] at h
    cases h
    rfl
  | read =>
    rw [issueWithin_read hr] at h
    cases hq : s.outQ with
    | nil =>
      rw [readEffect_nil hq] at h
      cases h
      rfl
    | cons v q =>
      rw [readEffect_cons hq] at h
      cases h
      rfl
  | _ =>
    rw [issueWithin, if_neg hr] at h
    cases h
    rfl

end

/-- Settles O43: steps and runs do not make the engine Ready, reset and an accepted load do, and the other commands keep
the run state. -/
theorem runStateMachine : Obligations.RunStateMachine := by
  refine ⟨fun s t hr h => step_rs_ne_ready (by simp [hr]) h, fun n c s t r hr h => ?_⟩
  exact ⟨command_not_running hr h, command_rs_ready hr h, command_keeps_rs hr h, fun hc =>
    run_rs_ne_ready hr (hc ▸ h)⟩

/-- Settles O59: an idle engine takes no step, a run of it changes nothing, and other commands keep the run state. -/
theorem haltedAndFaultedAreTerminal : Obligations.HaltedAndFaultedAreTerminal := by
  intro s hterm
  have hr : s.rs ≠ .running := by rcases hterm with h | h <;> simp [h]
  refine ⟨step_idle hr, issueWithin_run_of_terminal hterm, fun n c r t h hne => ?_⟩
  by_contra hc
  obtain ⟨hreset, hload⟩ := not_or.mp hc
  have hrun : c ≠ .run := by
    rintro rfl
    cases (issueWithin_run_of_terminal hterm n).symm.trans h
    exact hne rfl
  exact hne (command_keeps_rs hr h hreset (fun P hP => absurd ⟨P, hP⟩ hload) hrun)

end Sys2Proof.Machine
end

section
/-! PROOFS. The statements of 60_exceptions.md and 70_reset_and_hazards.md, and the one about an Immediate destination:
what a step that faults has done, which causes an instruction can raise, several instances, and the power-on state. -/

namespace Sys2Proof.Machine

/-! ### The causes an instruction raises -/

/-- The end of an attempt as far as faults go: it has raised one of the causes `cs`, or it goes on in a state that
is not Faulted (00_scope.md R13). -/
inductive Attempt.RaisesOnly (cs : List Cause) {α : Type} : Attempt α → Prop
  | ok (v : α) {s : State} (hs : s.rs ≠ .faulted) : RaisesOnly cs (.ok v s)
  | raised {c : Cause} (hc : c ∈ cs) (s : State) : RaisesOnly cs (.raised c s)

/-- A sequence raises what its parts raise. -/
theorem Attempt.RaisesOnly.bind {cs : List Cause} {α β : Type} {x : Attempt α} {k : α → State → Attempt β}
    (h : x.RaisesOnly cs) (hk : ∀ v s, s.rs ≠ .faulted → (k v s).RaisesOnly cs) : (x.bind k).RaisesOnly cs := by
  cases h with
  | ok v hs => exact hk v _ hs
  | raised hc s => exact .raised hc s

/-- An attempt that ends Faulted has taken a fault of one of its causes. -/
theorem Attempt.RaisesOnly.cause_mem {cs : List Cause} {x : Attempt Unit} {t : State} (h : x.RaisesOnly cs)
    (hx : x.finish = .next t) (ht : t.rs = .faulted) : ∃ c, c ∈ cs ∧ t.fc = some c := by
  cases h with
  | ok v hs =>
    cases hx
    exact absurd ht hs
  | raised hc s =>
    cases hx
    exact ⟨_, hc, rfl⟩

/-- The causes of the address checks (20_memory.md R210, R211). -/
abbrev addressCauses : List Cause := [.negativeAddress, .capacityExceeded]

theorem mem_addressCauses_iff {c : Cause} :
    c ∈ addressCauses ↔ c = .negativeAddress ∨ c = .capacityExceeded := by
  simp

section
variable {cs : List Cause} (hcs : addressCauses ⊆ cs) {s : State} (hs : s.rs ≠ .faulted)
include hcs hs

theorem readOp_raisesOnly (o : Operand) : (readOp o s).RaisesOnly cs := by
  cases ho : operandFault o s with
  | none =>
    rw [readOp_ok ho]
    exact .ok _ (by rwa [afterRead_rs])
  | some c =>
    rw [readOp_raised ho]
    exact .raised (hcs (mem_addressCauses_iff.mpr (operandFault_mem ho))) s

theorem writeOp_raisesOnly {d : Operand} (hd : d.isDest = true) (v : Word) : (writeOp d v s).RaisesOnly cs := by
  obtain ⟨e, he⟩ := effAddr_of_isDest s hd
  rw [writeOp_of_effAddr he]
  cases ha : s.addressFault e with
  | none =>
    rw [memWrite_ok ha]
    exact .ok _ hs
  | some c =>
    rw [memWrite_raised ha]
    exact .raised (hcs (mem_addressCauses_iff.mpr (State.addressFault_mem ha))) s

theorem jumpTo_raisesOnly (w : Word) : (jumpTo w s).RaisesOnly cs := by
  rcases lt_or_ge w.toInt 0 with hw | hw
  · rw [jumpTo_raised hw]
    exact .raised (hcs (mem_addressCauses_iff.mpr (.inl rfl))) s
  · rw [jumpTo_ok hw]
    exact .ok _ hs

theorem threeOperand_raisesOnly {alu : Word → Word → State → Attempt Word}
    (halu : ∀ x y u, u.rs ≠ .faulted → (alu x y u).RaisesOnly cs) (a b : Operand) {d : Operand}
    (hd : d.isDest = true) : (threeOperand alu a b d s).RaisesOnly cs := by
  rw [threeOperand, requireDest_ok hd, Attempt.bind_ok]
  exact (readOp_raisesOnly hcs hs a).bind fun x _ h =>
    (readOp_raisesOnly hcs h b).bind fun y _ h =>
    (halu x y _ h).bind fun r _ h =>
    (writeOp_raisesOnly hcs h hd r).bind fun _ _ h => .ok _ h

theorem jumpWhen_raisesOnly (taken : Word → Bool) (a b : Operand) : (jumpWhen taken a b s).RaisesOnly cs :=
  (readOp_raisesOnly hcs hs a).bind fun x _ h =>
    (readOp_raisesOnly hcs h b).bind fun y _ h => by
    cases taken x with
    | true => exact jumpTo_raisesOnly hcs h y
    | false => exact .ok _ h

end

/-- A test of an exact result raises `ArithmeticOverflow` alone (41_arithmetic.md R470). -/
theorem checked_raisesOnly {cs : List Cause} (hcs : .arithmeticOverflow ∈ cs) (v : Int) {s : State}
    (hs : s.rs ≠ .faulted) : (checked v s).RaisesOnly cs := by
  rcases checked_cases v s with ⟨r, -, h⟩ | ⟨-, h⟩
  · rw [h]
    exact .ok r hs
  · rw [h]
    exact .raised hcs s

/-- The table of 60_exceptions.md R802 gives the causes of the address checks to every instruction but HALT. -/
theorem addressCauses_subset_mayRaise {i : Instr} (hi : i ≠ .halt) : addressCauses ⊆ mayRaise i := by
  cases i with
  | halt => exact absurd rfl hi
  | _ => simp [mayRaise]

/-- Settles O39: the parts of an instruction raise the causes of the address checks, and `ArithmeticOverflow` where a
result is tested. -/
theorem onlyTheTabledFaultsAreRaised : Obligations.OnlyTheTabledFaultsAreRaised := by
  intro i s t hwf h hr ht
  have hs : s.rs ≠ .faulted := by simp [hr]
  have hcs (hi : i ≠ .halt) : addressCauses ⊆ mayRaise i := addressCauses_subset_mayRaise hi
  cases i with
  | add a b d =>
    exact (threeOperand_raisesOnly (hcs nofun) hs
      (fun x y _ => checked_raisesOnly (by simp [mayRaise]) (x.toInt + y.toInt)) a b hwf).cause_mem h ht
  | mul a b d =>
    exact (threeOperand_raisesOnly (hcs nofun) hs
      (fun x y _ => checked_raisesOnly (by simp [mayRaise]) (x.toInt * y.toInt)) a b hwf).cause_mem h ht
  | lt a b d => exact (threeOperand_raisesOnly (hcs nofun) hs (fun _ _ _ => .ok _) a b hwf).cause_mem h ht
  | eq a b d => exact (threeOperand_raisesOnly (hcs nofun) hs (fun _ _ _ => .ok _) a b hwf).cause_mem h ht
  | inp d =>
    refine Attempt.RaisesOnly.cause_mem ?_ h ht
    rw [requireDest_ok hwf, Attempt.bind_ok]
    cases s.inQ with
    | nil => exact .ok () nofun
    | cons v q => exact (writeOp_raisesOnly (hcs nofun) hs hwf v).bind fun _ _ h1 => .ok () h1
  | out a =>
    refine Attempt.RaisesOnly.cause_mem ?_ h ht
    exact (readOp_raisesOnly (hcs nofun) hs a).bind fun _ _ h1 => .ok () h1
  | jt a b => exact (jumpWhen_raisesOnly (hcs nofun) hs aluNz a b).cause_mem h ht
  | jf a b =>
    rw [exec_jf] at h
    exact (jumpWhen_raisesOnly (hcs nofun) hs _ a b).cause_mem h ht
  | srel a =>
    refine Attempt.RaisesOnly.cause_mem ?_ h ht
    exact (readOp_raisesOnly (hcs nofun) hs a).bind fun x s1 hs1 =>
      (checked_raisesOnly (by simp [mayRaise]) (s1.rb.toInt + x.toInt) hs1).bind fun _ _ h1 => .ok () h1
  | halt =>
    cases (execHalt_eq s).symm.trans h
    cases ht

/-! ### Precise faults -/

/-- A body that leaves a Running engine Faulted has taken a fault (60_exceptions.md R801). -/
theorem BodyEffect.faultOf {s t : State} {i : Instr} (h : BodyEffect s i t) (hr : s.rs = .running)
    (ht : t.rs = .faulted) : FaultOf s t := by
  cases h with
  | fault _ hf => exact hf
  | suspend d hq => cases ht
  | halt => cases ht
  | _ => cases hr.symm.trans ht

/-- A step that leaves a Running engine Faulted has taken a fault, of the fetch or of the body after it
(60_exceptions.md R801). -/
theorem step_faultOf {s t : State} (hr : s.rs = .running) (h : step s = .next t) (ht : t.rs = .faulted) :
    FaultOf s t := by
  rcases step_cases h with ⟨hne, -⟩ | ⟨-, -, hf⟩ | ⟨-, i, s1, hfetch, hb⟩
  · exact absurd hr hne
  · exact hf
  · obtain ⟨n, hn, -, rfl⟩ := fetchInstr_ok_grown hfetch
    obtain ⟨c, m, hm, rfl⟩ := hb.faultOf hr ht
    exact ⟨c, m, grownTo_trans (t := { s with ext := n }) rfl hn hm, rfl⟩

/-- Settles O38: the fault is the one change beside the growth, and a Faulted engine is idle, so the loop of the run
ends in it. -/
theorem faultsArePrecise : Obligations.FaultsArePrecise := by
  intro s t hr h ht
  have hidle : t.rs ≠ .running := by simp [ht]
  refine ⟨?_, (step_grown h).1.1, step_idle hidle, fun n => ?_, fun n => ?_⟩
  · obtain ⟨c, n, -, rfl⟩ := step_faultOf hr h ht
    exact ⟨c, rfl⟩
  · rw [runLoop_succ hr h, runLoop_idle hidle]
  · rw [issueWithin_stateCode hidle, ht]
    rfl

/-! ### Several instances -/

/-- Everything a command to the core at index `k` does: the command to that state alone, and the new state in its place
(60_exceptions.md R840). -/
theorem issueAt_eq_some {n k : Nat} {c : Command} {cores cores' : Instances} {r : Response} :
    issueAt n k c cores = some (r, cores') ↔
      ∃ s t, cores[k]? = some s ∧ issueWithin n c s = some (r, t) ∧ cores' = cores.set k t := by
  cases hk : cores[k]? with
  | none => simp [issueAt, hk]
  | some s =>
    cases hc : issueWithin n c s with
    | none => simp [issueAt, hk, hc]
    | some answer =>
      obtain ⟨r', t⟩ := answer
      simp [issueAt, hk, hc, eq_comm]

/-- Settles O57: the command replaces the state at index `k` of the list and no other. -/
theorem instancesAreIndependent : Obligations.InstancesAreIndependent := by
  intro n k c cores cores' r h
  obtain ⟨s, t, hk, hc, rfl⟩ := issueAt_eq_some.mp h
  obtain ⟨hlt, -⟩ := List.getElem?_eq_some_iff.mp hk
  exact ⟨List.length_set, fun j hj => List.getElem?_set_ne hj.symm, s, t, hk, hc, List.getElem?_set_self hlt⟩

/-! ### Power-on -/

/-- The state after an empty load is the power-on state (70_reset_and_hazards.md R900). -/
theorem loadEffect_nil (s : State) : loadEffect [] s = (.accepted, State.powerOn s.cfg) :=
  loadEffect_accepted (Nat.zero_le _)

/-- The first step after power-on fetches 0 at address 0, which is illegal (70_reset_and_hazards.md R900). -/
theorem step_powerOn {cfg : Config} (hc : cfg.Legal) :
    step { State.powerOn cfg with rs := .running } =
      .next { State.powerOn cfg with ext := 1, rs := .faulted, fc := some .illegalInstruction } :=
  (wordFetchBeyondTheProgramFaults { State.powerOn cfg with rs := .running } rfl).2 rfl le_rfl hc.1

/-- Settles O58: an empty load gives the power-on state, whose memory is empty, and the run ends in its first step. -/
theorem powerOnIsTheEmptyLoad : Obligations.PowerOnIsTheEmptyLoad := by
  refine ⟨fun n s hr => ?_, fun cfg => ⟨rfl, fun a => rfl, rfl, rfl, rfl, rfl, rfl, rfl, rfl⟩, fun n cfg hc => ?_⟩
  · rw [issueWithin_load hr, loadEffect_nil]
  · have hready : (State.powerOn cfg).rs = .ready := rfl
    rw [issueWithin_run_eq_some (by simp [hready]), beginRun_of_ready hready, runLoop_succ rfl (step_powerOn hc)]
    exact ⟨rfl, runLoop_idle nofun⟩

/-! ### An Immediate destination -/

/-- The check of the destination comes before the sources are read (30_encoding.md R307 (b)). -/
theorem threeOperand_not_isDest (alu : Word → Word → State → Attempt Word) (a b : Operand) {d : Operand}
    (hd : d.isDest = false) (s : State) :
    (threeOperand alu a b d s).finish = .next (s.takeFault .illegalInstruction) := by
  rw [threeOperand, requireDest_raised hd, Attempt.bind_raised, Attempt.finish_raised]

/-- The check of the destination comes before the queue is tested (30_encoding.md R307 (b)). -/
theorem execIn_not_isDest {d : Operand} (hd : d.isDest = false) (s : State) :
    execIn d s = .next (s.takeFault .illegalInstruction) := by
  rw [execIn, requireDest_raised hd, Attempt.bind_raised, Attempt.finish_raised]

/-- Settles O22: every instruction with a destination checks it first, and one without a destination is well-formed. -/
theorem immediateDestinationIsIllegal : Obligations.ImmediateDestinationIsIllegal := by
  intro i s hwf
  cases i with
  | add a b d => exact threeOperand_not_isDest aluAdd a b hwf s
  | mul a b d => exact threeOperand_not_isDest aluMul a b hwf s
  | lt a b d => exact threeOperand_not_isDest aluLt a b hwf s
  | eq a b d => exact threeOperand_not_isDest aluEq a b hwf s
  | inp d => exact execIn_not_isDest hwf s
  | _ => cases hwf

end Sys2Proof.Machine
end
